-- ==== Sys2Proof/Word.lean ====
section
/-! DEFINITION. Word.lean: the widths of the block's ports and the pseudocode primitives of rule R8
(00_scope.md): `U4`, `Byte`, `Command`, `nat`, `bits4`, `zext8`, and the document's bit index (R26). -/

namespace Sys2Proof

/-- A 4-bit port or field, the document's value type `U4` (R7, R19). Bit `j` has weight `2^j` (R8). -/
abbrev U4 := BitVec 4

/-- An 8-bit native byte: the output `y` and the TRUNC input `x` (R12, R20). -/
abbrev Byte := BitVec 8

/-- A 12-bit command word `{op, a, b}` (R40). -/
abbrev Command := BitVec 12

/-- `BITS`, the operand width (R19). -/
def BITS : Nat := 4

/-- `MIN`, all bits false (R19). -/
def MIN : U4 := 0b0000#4

/-- `MAX`, all bits true (R19). -/
def MAX : U4 := 0b1111#4

/-- `nat(v)`: the unsigned value of a nibble (R8). -/
def nat (v : U4) : Nat := v.toNat

/-- `bits4(n)`: the nibble whose value is `n mod 16` (R8). -/
def bits4 (n : Nat) : U4 := BitVec.ofNat 4 n

/-- `zext_8(v) = {0b0000, v}` (R8). -/
def zext8 (v : U4) : Byte := 0b0000#4 ++ v

/-- The bit of a nibble at the document's index `i`, which is port bit `3 - i` (R26). -/
def docBit (v : U4) (i : Nat) : Bool := v.getLsbD (3 - i)

end Sys2Proof
end

