-- ==== Sys2Proof/Machine/Operands.lean ====
section
/-! DEFINITION. Machine/Operands.lean: the operand forms of rule R41 (30_encoding.md) and the bits of a nibble. -/

namespace Sys2Proof.Machine

/-- `v[j]` (R8). -/
def bit (v : U4) (j : Nat) : Bool := v.getLsbD j

/-- The nibble with `r[j] = f j` for `j` in 0..3 (R8). -/
def ofBits (f : Nat → Bool) : U4 :=
  BitVec.ofBool (f 3) ++ BitVec.ofBool (f 2) ++ BitVec.ofBool (f 1) ++ BitVec.ofBool (f 0)

/-- Format X: the byte `x = {a, b}` (R20, R27, R41). -/
def byteOperand (a b : U4) : Byte := a ++ b

/-- The low nibble `x[3:0]` of a byte (R8). -/
def lowNibble (x : Byte) : U4 := x.extractLsb' 0 4

/-- The rotation amount `k = nat(b[1:0])`; `b[3:2]` is not read (R41, R80). -/
def amount (b : U4) : Nat := (b.extractLsb' 0 2).toNat

end Sys2Proof.Machine
end

