-- ==== Sys2Proof/Syntax.lean ====
section
/-! DEFINITION. Syntax.lean: the commands of the opcode map (R42), one constructor per row of
opcode_table.json, and the assembler's source lines (R47, R48). -/

namespace Sys2Proof

/-- A command (R42). Every constructor keeps the whole of both operand fields, the don't-care bits of R45 too:
they are on the block's input ports whether or not the operation reads them. -/
inductive Instr where
  /-- `ADD a, b` (R61). -/
  | add (a b : U4)
  /-- `SUB a, b` (R63). -/
  | sub (a b : U4)
  /-- `XOR a, b` (R70). -/
  | xor (a b : U4)
  /-- `OR a, b` (R71). -/
  | or (a b : U4)
  /-- `AND a, b` (R72). -/
  | and (a b : U4)
  /-- `ROL a, b`: the amount is `b[1:0]` (R80, R81). -/
  | rol (a b : U4)
  /-- `ROR a, b`: the amount is `b[1:0]` (R80, R82). -/
  | ror (a b : U4)
  /-- `ZEXT a`: `b` is not read (R50). -/
  | zext (a b : U4)
  /-- `TRUNC x` with `x = {a, b}` (R20, R51). -/
  | trunc (a b : U4)
  /-- The reserved `op = 0x9` (R44, R91). -/
  | reserved9 (a b : U4)
  /-- The reserved `op` 0xA and 0xB (R44, R91). -/
  | reservedAB (op a b : U4)
  /-- The reserved `op` 0xC to 0xF (R44, R91). -/
  | reservedCF (op a b : U4)
deriving DecidableEq, Repr

/-- The assembler's mnemonics: the nine of R42 and the pseudo-instructions of R48. -/
inductive Mnem where
  | add | sub | xor | or | and | rol | ror | zext | trunc
  | wadd | wsub | not | neg | inc | dec | frombyte | tobyte
deriving DecidableEq, Repr

/-- A name of a host program (R47). -/
abbrev Name := List Char

/-- An operand as written in a source line: a number, or the name of a value the host kept (R47). The symbols
`MIN` and `MAX` are the numbers 0 and 15 (R19, R47). -/
inductive SrcOperand where
  | lit (n : Nat)
  | name (id : Name)
deriving DecidableEq, Repr

/-- A source command: a mnemonic and its operands (R47). -/
structure Source where
  mnem : Mnem
  operands : List SrcOperand
deriving DecidableEq, Repr

/-- A line of a host program, `name = OP operands`, or a plain command (R47). -/
structure HostLine where
  dest : Option Name
  source : Source
deriving DecidableEq, Repr

/-- What an operand position holds (R41, R47): a nibble, a rotation amount, or a byte. -/
inductive OperandKind where
  | nibble
  | amount
  | byte
deriving DecidableEq, Repr

end Sys2Proof
end

