-- ==== Sys2Proof/WellFormed.lean ====
section
/-! DEFINITION. WellFormed.lean: which commands the opcode map has (the reserved ranges of R44), and which
source commands the assembler accepts (R47, R49). -/

namespace Sys2Proof

/-- A command of the opcode map: the two range rows hold an `op` of their own range (R42, R44). -/
def Instr.wellFormed : Instr → Bool
  | .add _ _ => true
  | .sub _ _ => true
  | .xor _ _ => true
  | .or _ _ => true
  | .and _ _ => true
  | .rol _ _ => true
  | .ror _ _ => true
  | .zext _ _ => true
  | .trunc _ _ => true
  | .reserved9 _ _ => true
  | .reservedAB op _ _ => 0xA#4 ≤ op && op ≤ 0xB#4
  | .reservedCF op _ _ => 0xC#4 ≤ op

/-- The operand positions of each mnemonic (R47, R48). -/
def Mnem.kinds : Mnem → List OperandKind
  | .add | .sub | .xor | .or | .and | .wadd | .wsub => [.nibble, .nibble]
  | .rol | .ror => [.nibble, .amount]
  | .zext | .not | .neg | .inc | .dec | .tobyte => [.nibble]
  | .trunc | .frombyte => [.byte]

/-- A number fits its operand position: a nibble is 0 to 15, a byte 0 to 255, an amount any number (R47, R49). -/
def OperandKind.fits : OperandKind → Nat → Bool
  | .nibble, n => n < 16
  | .byte, n => n < 256
  | .amount, _ => true

/-- A written operand fits its position. A name always does: the host substitutes what fits (R47). -/
def SrcOperand.fits (k : OperandKind) : SrcOperand → Bool
  | .lit n => k.fits n
  | .name _ => true

/-- The source command has as many operands as its mnemonic takes, each in range (R47, R49). -/
def Source.wellFormed (c : Source) : Bool :=
  c.operands.length == c.mnem.kinds.length
    && (List.zipWith SrcOperand.fits c.mnem.kinds c.operands).all id

end Sys2Proof
end

