-- ==== Sys2Proof/Decode.lean ====
section
/-! DEFINITION. Decode.lean: the command word's fields (R40), the decoder, which is total (R40, R42), the
encoder, the opcode table as rows of mask and pattern, and the word numbering the host uses. -/

namespace Sys2Proof

/-- `cmd[11:8]` (R40). -/
def opField (c : Command) : U4 := c.extractLsb' 8 4

/-- `cmd[7:4]` (R40). -/
def aField (c : Command) : U4 := c.extractLsb' 4 4

/-- `cmd[3:0]` (R40). -/
def bField (c : Command) : U4 := c.extractLsb' 0 4

/-- The word `{op, a, b}` (R40). -/
def pack (op a b : U4) : Command := op ++ a ++ b

/-- The command that `op`, `a` and `b` select together (R42). -/
def decodeFields (op a b : U4) : Instr :=
  match op.toNat with
  | 0x0 => .add a b
  | 0x1 => .sub a b
  | 0x2 => .xor a b
  | 0x3 => .or a b
  | 0x4 => .and a b
  | 0x5 => .rol a b
  | 0x6 => .ror a b
  | 0x7 => .zext a b
  | 0x8 => .trunc a b
  | 0x9 => .reserved9 a b
  | 0xA => .reservedAB op a b
  | 0xB => .reservedAB op a b
  | _ => .reservedCF op a b

/-- The decoder: every 12-bit word is one command (R40). -/
def decode (c : Command) : Instr := decodeFields (opField c) (aField c) (bField c)

/-- Why a number is no command word. -/
inductive DecodeReject where
  /-- It has a bit above `cmd[11]`: the block has no port for it (R40, R46). -/
  | widerThanCommand
deriving DecidableEq, Repr

/-- The command word a number stands for, or the reason it is none (R40: every command has this one length). -/
def commandOfNat (n : Nat) : Except DecodeReject Command :=
  if n < 4096 then .ok (BitVec.ofNat 12 n) else .error .widerThanCommand

/-- The value of `op` that selects a command (R42). -/
def Instr.op : Instr → U4
  | .add _ _ => 0x0#4
  | .sub _ _ => 0x1#4
  | .xor _ _ => 0x2#4
  | .or _ _ => 0x3#4
  | .and _ _ => 0x4#4
  | .rol _ _ => 0x5#4
  | .ror _ _ => 0x6#4
  | .zext _ _ => 0x7#4
  | .trunc _ _ => 0x8#4
  | .reserved9 _ _ => 0x9#4
  | .reservedAB op _ _ => op
  | .reservedCF op _ _ => op

/-- The first operand field of a command (R40). -/
def Instr.a : Instr → U4
  | .add a _ | .sub a _ | .xor a _ | .or a _ | .and a _ | .rol a _ | .ror a _ | .zext a _ | .trunc a _
  | .reserved9 a _ | .reservedAB _ a _ | .reservedCF _ a _ => a

/-- The second operand field of a command (R40). -/
def Instr.b : Instr → U4
  | .add _ b | .sub _ b | .xor _ b | .or _ b | .and _ b | .rol _ b | .ror _ b | .zext _ b | .trunc _ b
  | .reserved9 _ b | .reservedAB _ _ b | .reservedCF _ _ b => b

/-- The encoder (R40, R42). -/
def encode (i : Instr) : Command := pack i.op i.a i.b

/-- A row of the opcode table: the word matches when its bits under `mask` are `pattern`. -/
structure OpcodeRow where
  mnemonic : String
  mask : Command
  pattern : Command
deriving DecidableEq, Repr

/-- `match` and `mask` of the twelve rows (30_encoding.md R42, opcode_table.json). -/
def opcodeRows : List OpcodeRow :=
  [ ⟨"ADD", 0xF00#12, 0x000#12⟩, ⟨"SUB", 0xF00#12, 0x100#12⟩, ⟨"XOR", 0xF00#12, 0x200#12⟩,
    ⟨"OR", 0xF00#12, 0x300#12⟩, ⟨"AND", 0xF00#12, 0x400#12⟩, ⟨"ROL", 0xF00#12, 0x500#12⟩,
    ⟨"ROR", 0xF00#12, 0x600#12⟩, ⟨"ZEXT", 0xF00#12, 0x700#12⟩, ⟨"TRUNC", 0xF00#12, 0x800#12⟩,
    ⟨"RESERVED_9", 0xF00#12, 0x900#12⟩, ⟨"RESERVED_A_B", 0xE00#12, 0xA00#12⟩,
    ⟨"RESERVED_C_F", 0xC00#12, 0xC00#12⟩ ]

/-- The word falls under the row. -/
def OpcodeRow.covers (r : OpcodeRow) (c : Command) : Bool := c &&& r.mask == r.pattern

/-- The name of a command's row (R42). -/
def Instr.mnemonic : Instr → String
  | .add _ _ => "ADD"
  | .sub _ _ => "SUB"
  | .xor _ _ => "XOR"
  | .or _ _ => "OR"
  | .and _ _ => "AND"
  | .rol _ _ => "ROL"
  | .ror _ _ => "ROR"
  | .zext _ _ => "ZEXT"
  | .trunc _ _ => "TRUNC"
  | .reserved9 _ _ => "RESERVED_9"
  | .reservedAB _ _ _ => "RESERVED_A_B"
  | .reservedCF _ _ _ => "RESERVED_C_F"

/-- The command word whose low `nbits` bits are those of `w`, the bits above them 0. The spec gives no number longer
than its word: here the bits of `w` above `nbits` are dropped, so that `0x1000` of 12 bits is the word `0x000`, and only
a number that keeps a bit above `cmd[11]` is no command word (DESIGN CHOICE, log entry 10). -/
def commandOfTableWord (nbits w : Nat) : Except DecodeReject Command := commandOfNat (w % 2 ^ nbits)

/-- The command this decoder reads from the low `nbits` bits of `w`; none where they are no command word, for which
`nbits` must be more than 12 (log entry 10). -/
def decodeTableWord (nbits w : Nat) : Option Instr :=
  match commandOfTableWord nbits w with
  | .ok c => some (decode c)
  | .error _ => none

end Sys2Proof
end

