-- ==== Sys2Proof/Config.lean ====
section
/-! DEFINITION. Config.lean: the build-time parameters of rule R7 (`HAS_AND`, `SUB_TABLE`, `T_SETTLE`) and
the free values the spec leaves open (R111, R116). -/

namespace Sys2Proof

/-- `SUB_TABLE` (R7): which full-subtractor table the block was built with (R62, R65, C1). -/
inductive SubTable where
  /-- R62's table: row (1, 1, 1) borrows. -/
  | arith
  /-- The document's table as printed: row (1, 1, 1) does not borrow (R65). -/
  | literal
deriving DecidableEq, Repr

/-- The parameters fixed when the block is built (R7, R16, R119). No input can set them. -/
structure Build where
  /-- `HAS_AND` (R7, D8): the AND gate is present and `op = 0x4` is not reserved. -/
  hasAnd : Bool
  /-- `SUB_TABLE` (R7, D9). -/
  subTable : SubTable
  /-- `T_SETTLE` (R7, R112), in an unnamed unit of time. -/
  tSettle : Nat
deriving DecidableEq, Repr

/-- `T_SETTLE` is OPEN (R112): an unknown duration less one unit. No body, so nothing can be proved of it
(DESIGN CHOICE, log entry 2). -/
opaque Config.tSettlePred : Nat

/-- `T_SETTLE`: a positive duration (92_eei_decisions.md, parameters). -/
def Config.tSettle : Nat := Config.tSettlePred + 1

/-- The defaults of R7: `HAS_AND = true`, `SUB_TABLE = ARITH`; `T_SETTLE` has none and stays unknown. -/
def Config.build : Build := { hasAnd := true, subTable := .arith, tSettle := Config.tSettle }

/-- Free draw number `n` of the unsettled output `y`: any value of its width, under no law (R111, R116,
log entry 3). -/
opaque Config.freeY : Nat → Byte

/-- Free draw number `n` of the unsettled output `ill` (R111, R116, log entry 3). -/
opaque Config.freeIll : Nat → Bool

end Sys2Proof
end

