-- ==== Sys2Proof/Machine/State.lean ====
section
/-! DEFINITION. Machine/State.lean: the ports, the settling of the outputs, the build parameters and the host's
pending actions (10_state.md R10 to R20, 70_reset_and_hazards.md R110 to R119); the reasons a step could stop; reset. -/

namespace Sys2Proof.Machine

/-- What the host does to the block (R117, R119). -/
inductive HostAction where
  /-- The protocol of R117 in one transaction: issue the command, hold it for `T_SETTLE`, take the settled
  sample. This is how a program's commands run (log entry 6). -/
  | command (c : Command)
  /-- Issue a command: drive `op`, `a` and `b` in one go (R117, R40). -/
  | issue (c : Command)
  /-- Hold the inputs for a time (R112). -/
  | hold (t : Nat)
  /-- Sample `y` and `ill`, settled or not (R113, R117). -/
  | sample
  /-- Stop driving the inputs (R117, row "end"; log entry 9). -/
  | release
  /-- Take power away and apply it again (R103, R111). -/
  | powerCycle
deriving DecidableEq, Repr

/-- One sample of the outputs (R117, R118). -/
structure Sample where
  y : Byte
  ill : Bool
deriving DecidableEq, Repr

/-- The machine: a block that stores nothing (R10), as its ports stand, with the host that drives it. -/
structure State where
  /-- The parameters the block was built with (R7, R16): an argument of the model, which no step changes
  (log entry 1). -/
  build : Build
  /-- Input port `op` (R11). -/
  op : U4
  /-- Input port `a` (R11). -/
  a : U4
  /-- Input port `b` (R11). -/
  b : U4
  /-- The host drives the inputs with defined levels (R119). -/
  driven : Bool
  /-- How much longer the inputs must be held until the outputs are settled; 0 when they are (R112). -/
  settleLeft : Nat
  /-- Output port `y` (R12); while unsettled, the latest free draw (R116). -/
  y : Byte
  /-- Output port `ill` (R12, R91); while unsettled, the latest free draw (R116). -/
  ill : Bool
  /-- How many free draws have been made: the model's own field (log entry 3). -/
  draws : Nat
  /-- What the host does next, first action first (R117). -/
  script : List HostAction
  /-- The samples taken, oldest first: the result of the host's program (R118, R31). -/
  samples : List Sample
deriving DecidableEq, Repr

/-- Why a step stops with a fault. There is no constructor: the block has no trap, fault or exception
(R92, R93); its one abnormal condition is the level `ill` (R91), which stops nothing. Safe. -/
inductive Fault where
deriving DecidableEq, Repr

/-- Why a step is refused. -/
inductive Refusal where
  /-- Raised by the arm of an instruction that has no meaning yet; no arm of this model raises it. Safe. -/
  | notModelled (mnemonic : String)
deriving DecidableEq, Repr

/-- Power has just been applied (R110, R111): nothing is stored, the host does not drive yet, and the outputs
are unspecified, a free draw. The build is R7's default with `T_SETTLE` unknown. The port values 0 are a
DESIGN CHOICE nothing reads while `driven` is false (log entry 5). -/
def State.reset : State where
  build := Config.build
  op := 0
  a := 0
  b := 0
  driven := false
  settleLeft := Config.tSettle
  y := Config.freeY 0
  ill := Config.freeIll 0
  draws := 1
  script := []
  samples := []

end Sys2Proof.Machine
end

