-- ==== Sys2Proof/Machine/Ops.lean ====
section
/-! DEFINITION. Machine/Ops.lean: the named operations on the ports: driving the outputs (R12), the one
abnormal condition ILLEGAL_OP (R91), the free draw of unsettled outputs (R116), issuing (R113, R117),
sampling (R113, R117), releasing and power (R103, R111, R117). No return from an exception exists (R96). -/

namespace Sys2Proof.Machine

/-- `y <- v`, `ill <- i` (R8). -/
def State.drive (s : State) (v : Byte) (i : Bool) : State := { s with y := v, ill := i }

/-- A nibble result: `y <- zext_8(r)`, `ill <- 0` (R12, R42). -/
def State.driveNibble (s : State) (r : U4) : State := s.drive (zext8 r) false

/-- ILLEGAL_OP: `y <- 0x00`, `ill <- 1`, and nothing else (R91, R93). -/
def State.driveIllegal (s : State) : State := s.drive 0x00#8 true

/-- The outputs are not settled: each of their bits takes any value, drawn afresh (R111, R116). -/
def State.redraw (s : State) : State :=
  { s with y := Config.freeY s.draws, ill := Config.freeIll s.draws, draws := s.draws + 1 }

/-- The outputs are settled: the inputs are driven and have been held for `T_SETTLE` (R112). -/
def State.settled (s : State) : Bool := s.driven && s.settleLeft == 0

/-- The host already drives exactly this command. -/
def State.drives (s : State) (c : Command) : Bool := s.driven && pack s.op s.a s.b == c

/-- Issue a command (R117). Changing any input bit starts a new command, whose settling time starts there
(R113); driving the same levels again changes nothing (log entry 7). -/
def State.present (s : State) (c : Command) : State :=
  if s.drives c then s
  else ({ s with op := opField c, a := aField c, b := bField c, driven := true,
                 settleLeft := s.build.tSettle }).redraw

/-- The settling time is over (R112). -/
def State.settleNow (s : State) : State := { s with settleLeft := 0 }

/-- Append the outputs to the host's samples (R118). -/
def State.record (s : State) : State := { s with samples := s.samples ++ [⟨s.y, s.ill⟩] }

/-- Take a sample. A settled one changes nothing on the ports (R29); after an unsettled one the outputs may be
anything again (R116). -/
def State.takeSample (s : State) : State := if s.settled then s.record else s.record.redraw

/-- The host stops driving: no input is held, so nothing settles until it drives again (R112, R117, log
entry 9). -/
def State.release (s : State) : State := ({ s with driven := false, settleLeft := s.build.tSettle }).redraw

/-- Power is taken away and applied again: the outputs are unspecified until the inputs have been held for
`T_SETTLE` (R103, R111). -/
def State.powerCycle (s : State) : State := ({ s with settleLeft := s.build.tSettle }).redraw

/-- Replace the host's pending actions. -/
def State.withScript (s : State) (l : List HostAction) : State := { s with script := l }

/-- Go on with the next state, if there is one. -/
def onNext (o : Host.Outcome State Fault Refusal) (f : State → State) : Host.Outcome State Fault Refusal :=
  match o with
  | .next s => .next (f s)
  | .fault r => .fault r
  | .refused r => .refused r

end Sys2Proof.Machine
end

