-- ==== Sys2Proof/Machine/Arith.lean ====
section
/-! DEFINITION. Machine/Arith.lean: the ripple-carry adder and the ripple-borrow subtractor (41_arith.md R60 to R65). -/

namespace Sys2Proof.Machine

/-- The full-adder cell's table: `(s, cout)` (R60). -/
def fullAdder (p q cin : Bool) : Bool × Bool :=
  match p, q, cin with
  | false, false, false => (false, false)
  | false, false, true => (true, false)
  | false, true, false => (true, false)
  | false, true, true => (false, true)
  | true, false, false => (true, false)
  | true, false, true => (false, true)
  | true, true, false => (false, true)
  | true, true, true => (true, true)

/-- The carry chain: `c[0] = 0`, and `c[j+1]` is the carry out of cell `j` (R61). An internal net (R18). -/
def carry (a b : U4) : Nat → Bool
  | 0 => false
  | j + 1 => (fullAdder (bit a j) (bit b j) (carry a b j)).2

/-- `ADD4(a, b)`; `c[4]` is discarded (R61), so that R73's last law, which this rule and the vector `0x088` contradict
where `a & b = 0b1000`, holds of it up to there (log entry 15). -/
def add4 (a b : U4) : U4 := ofBits fun j => (fullAdder (bit a j) (bit b j) (carry a b j)).1

/-- The full-subtractor cell's table: `(d, wout)` (R62); its last row is the document's under `LITERAL` (R65). -/
def fullSub (t : SubTable) (p q win : Bool) : Bool × Bool :=
  match p, q, win with
  | false, false, false => (false, false)
  | false, false, true => (true, true)
  | false, true, false => (true, true)
  | false, true, true => (false, true)
  | true, false, false => (true, false)
  | true, false, true => (false, false)
  | true, true, false => (false, false)
  | true, true, true =>
    match t with
    | .arith => (true, true)
    | .literal => (true, false)

/-- The borrow chain: `w[0] = 0`, and `w[j+1]` is the borrow out of cell `j` (R63). An internal net (R18). -/
def borrow (t : SubTable) (a b : U4) : Nat → Bool
  | 0 => false
  | j + 1 => (fullSub t (bit a j) (bit b j) (borrow t a b j)).2

/-- `SUB4(a, b)`; `w[4]` is discarded (R63). -/
def sub4 (t : SubTable) (a b : U4) : U4 := ofBits fun j => (fullSub t (bit a j) (bit b j) (borrow t a b j)).1

/-- ADD (R61). -/
def execAdd (a b : U4) (s : State) : Host.Outcome State Fault Refusal := .next (s.driveNibble (add4 a b))

/-- SUB (R63, R65). -/
def execSub (a b : U4) (s : State) : Host.Outcome State Fault Refusal :=
  .next (s.driveNibble (sub4 s.build.subTable a b))

end Sys2Proof.Machine
end

