-- ==== Sys2Proof/Machine/Convert.lean ====
section
/-! DEFINITION. Machine/Convert.lean: ZEXT and TRUNC (40_convert.md R50, R51). -/

namespace Sys2Proof.Machine

/-- ZEXT: `y <- {0b0000, a}`; `b` is not read (R50). -/
def execZext (a : U4) (s : State) : Host.Outcome State Fault Refusal := .next (s.driveNibble a)

/-- TRUNC: `y <- zext_8(x[3:0])` with `x = {a, b}` (R51). -/
def execTrunc (a b : U4) (s : State) : Host.Outcome State Fault Refusal :=
  .next (s.driveNibble (lowNibble (byteOperand a b)))

end Sys2Proof.Machine
end

