-- ==== Sys2Proof/Machine/Logic.lean ====
section
/-! DEFINITION. Machine/Logic.lean: the bitwise gates (42_logic.md R70 to R73). -/

namespace Sys2Proof.Machine

/-- `r[j] = f a[j] b[j]` for each of the four positions (R70 to R73). -/
def gate4 (f : Bool → Bool → Bool) (a b : U4) : U4 := ofBits fun j => f (bit a j) (bit b j)

/-- `a ^ b` (R70). -/
def xor4 (a b : U4) : U4 := gate4 Bool.xor a b

/-- `a | b` (R71). -/
def or4 (a b : U4) : U4 := gate4 Bool.or a b

/-- `a & b` (R72). -/
def and4 (a b : U4) : U4 := gate4 Bool.and a b

/-- XOR (R70). -/
def execXor (a b : U4) (s : State) : Host.Outcome State Fault Refusal := .next (s.driveNibble (xor4 a b))

/-- OR (R71). -/
def execOr (a b : U4) (s : State) : Host.Outcome State Fault Refusal := .next (s.driveNibble (or4 a b))

/-- AND on a block that has the gate; a reserved `op` on one that has not (R72, R91). -/
def execAnd (a b : U4) (s : State) : Host.Outcome State Fault Refusal :=
  if s.build.hasAnd then .next (s.driveNibble (and4 a b)) else .next s.driveIllegal

end Sys2Proof.Machine
end

