-- ==== Sys2Proof/Machine/Reserved.lean ====
section
/-! DEFINITION. Machine/Reserved.lean: the reserved `op` values (30_encoding.md R44, 60_exceptions.md R91). Each
raises ILLEGAL_OP, whatever `a` and `b` hold (log entry 8). -/

namespace Sys2Proof.Machine

/-- `op = 0x9` (R44, R91). -/
def execReserved9 (s : State) : Host.Outcome State Fault Refusal := .next s.driveIllegal

/-- `op` 0xA and 0xB (R44, R91). -/
def execReservedAB (s : State) : Host.Outcome State Fault Refusal := .next s.driveIllegal

/-- `op` 0xC to 0xF (R44, R91). -/
def execReservedCF (s : State) : Host.Outcome State Fault Refusal := .next s.driveIllegal

end Sys2Proof.Machine
end

