-- ==== Sys2Proof/Machine/Rotate.lean ====
section
/-! DEFINITION. Machine/Rotate.lean: the barrel rotator (43_rotate.md R80 to R83). -/

namespace Sys2Proof.Machine

/-- `ROL4(a, k)`: `r[j] = a[(j - k) mod 4]`, the residue in 0..3 (R81). -/
def rol4 (a : U4) (k : Nat) : U4 := ofBits fun j => bit a (((j : Int) - (k : Int)) % 4).toNat

/-- `ROR4(a, k)`: `r[j] = a[(j + k) mod 4]` (R82). -/
def ror4 (a : U4) (k : Nat) : U4 := ofBits fun j => bit a ((j + k) % 4)

/-- One stage of the reference structure: four 2-to-1 multiplexers that pass `a` on, or `a` rotated by `k`
(R80). Its output is the internal net of R18. -/
def rotStage (rot : U4 → Nat → U4) (k : Nat) (enable : Bool) (a : U4) : U4 := if enable then rot a k else a

/-- The reference structure: a stage of 1 selected by `b[0]` and a stage of 2 selected by `b[1]` (R80). Only
its function is normative (R6); the meanings below use R81's and R82's. -/
def barrel (rot : U4 → Nat → U4) (a b : U4) : U4 := rotStage rot 2 (bit b 1) (rotStage rot 1 (bit b 0) a)

/-- ROL (R81). -/
def execRol (a b : U4) (s : State) : Host.Outcome State Fault Refusal := .next (s.driveNibble (rol4 a (amount b)))

/-- ROR (R82). -/
def execRor (a b : U4) (s : State) : Host.Outcome State Fault Refusal := .next (s.driveNibble (ror4 a (amount b)))

end Sys2Proof.Machine
end

