-- ==== Sys2Proof/Machine/Dispatch.lean ====
section
/-! DEFINITION. Machine/Dispatch.lean: one arm per command of the opcode map (R42). exec gives the outputs of the
settled block for the command (R112). -/

namespace Sys2Proof.Machine

def exec (i : Instr) (s : State) : Host.Outcome State Fault Refusal :=
  match i with
  | .add a b => Sys2Proof.Machine.execAdd a b s
  | .sub a b => Sys2Proof.Machine.execSub a b s
  | .xor a b => Sys2Proof.Machine.execXor a b s
  | .or a b => Sys2Proof.Machine.execOr a b s
  | .and a b => Sys2Proof.Machine.execAnd a b s
  | .rol a b => Sys2Proof.Machine.execRol a b s
  | .ror a b => Sys2Proof.Machine.execRor a b s
  | .zext a _ => Sys2Proof.Machine.execZext a s
  | .trunc a b => Sys2Proof.Machine.execTrunc a b s
  | .reserved9 _ _ => Sys2Proof.Machine.execReserved9 s
  | .reservedAB _ _ _ => Sys2Proof.Machine.execReservedAB s
  | .reservedCF _ _ _ => Sys2Proof.Machine.execReservedCF s

end Sys2Proof.Machine
end

