-- ==== Sys2Proof/Machine/Protocol.lean ====
section
/-! DEFINITION. Machine/Protocol.lean: what each action of the host does (70_reset_and_hazards.md R111 to R118): the
settling of the outputs, and R117's transaction. -/

namespace Sys2Proof.Machine

/-- The command now on the input ports (R11, R40). -/
def State.onPorts (s : State) : Command := pack s.op s.a s.b

/-- The settling time is over: the outputs are those of the command on the ports (R112). -/
def settle (s : State) : Host.Outcome State Fault Refusal := exec (decode s.onPorts) s.settleNow

/-- The inputs are held for a time `t` (R112). Settled outputs stay; they settle if the time left has passed;
otherwise they may be anything (R116), and so they may while nothing drives the inputs (log entry 9). -/
def holdFor (t : Nat) (s : State) : Host.Outcome State Fault Refusal :=
  if s.settled then .next s
  else if s.driven && decide (s.settleLeft ≤ t) then settle s
  else if s.driven then .next ({ s with settleLeft := s.settleLeft - t }).redraw
  else .next s.redraw

/-- R117's protocol in one transaction: issue the command, hold it for `T_SETTLE`, and take the settled
sample (log entry 6). -/
def runCommand (c : Command) (s : State) : Host.Outcome State Fault Refusal :=
  onNext (exec (decode c) (s.present c).settleNow) State.takeSample

/-- One action of the host (R117). -/
def act (x : HostAction) (s : State) : Host.Outcome State Fault Refusal :=
  match x with
  | .command c => runCommand c s
  | .issue c => .next (s.present c)
  | .hold t => holdFor t s
  | .sample => .next s.takeSample
  | .release => .next s.release
  | .powerCycle => .next s.powerCycle

/-- The host has nothing left to do: one unit of time passes with the inputs as they are (R117, row "end";
log entry 7). -/
def idle (s : State) : Host.Outcome State Fault Refusal := holdFor 1 s

/-- The host's actions with the command of a table word's low `nbits` bits put before them; bits that are no command
word put nothing (log entry 10). -/
def fetchScript (nbits w : Nat) (l : List HostAction) : List HostAction :=
  match commandOfTableWord nbits w with
  | .ok c => .command c :: l
  | .error _ => l

end Sys2Proof.Machine
end

