-- ==== Sys2Proof/Machine/Step.lean ====
section
/-! DEFINITION. Machine/Step.lean: one step is the next action of the host (R117). -/

namespace Sys2Proof.Machine

/-- The next action of the host's script, or a unit of time when there is none. -/
def step (s : State) : Host.Outcome State Fault Refusal :=
  match s.script with
  | [] => idle s
  | x :: rest => act x (s.withScript rest)

/-- `s` with the command of a table word's low `nbits` bits as the host's next transaction (log entries 6 and 10). -/
def State.withFetchWord (s : State) (nbits w : Nat) : State := s.withScript (fetchScript nbits w s.script)

end Sys2Proof.Machine
end

