-- ==== Sys2Proof/Machine/Assembler.lean ====
section
/-! DEFINITION. Machine/Assembler.lean: from a source command to the command it encodes (30_encoding.md R47 to R49),
and the software's conversions as the host issues them (40_convert.md R52). -/

namespace Sys2Proof.Machine

/-- Why the assembler refuses a source line (R47, R49). That a line is refused is the rules'; the names of the reasons,
and which is given where several hold, are the model's (DESIGN CHOICE, log entry 11). -/
inductive AsmReject where
  /-- A nibble operand outside 0 to 15 (R49). -/
  | nibbleOutOfRange (n : Nat)
  /-- A byte operand outside 0 to 255 (R49). -/
  | byteOutOfRange (n : Nat)
  /-- Too few or too many operands for the mnemonic (R47). -/
  | wrongOperandCount
  /-- A name that no earlier line bound (R47). -/
  | unboundName (id : Name)
  /-- A word that is no mnemonic (R47). -/
  | unknownMnemonic (word : List Char)
  /-- A word that begins as a number and is none (R47). -/
  | badNumber (word : List Char)
  /-- A word before `=` that is no name (DESIGN CHOICE, log entry 11). -/
  | badName (word : List Char)
  /-- A line of another shape than R47's. -/
  | badLine
deriving DecidableEq, Repr

/-- The values the host kept under names, the latest first (R47, R117). -/
abbrev Env := List (Name × Byte)

/-- The value kept under a name. Two points are the model's, since R47 says nothing of them (DESIGN CHOICE, log entry
11): a name kept twice stands for its latest value, and names are compared character by character, so that `Acc` and
`acc` are two names (R47 calls mnemonics alone case-insensitive). -/
def Env.find (id : Name) : Env → Option Byte
  | [] => none
  | (k, v) :: rest => if k = id then some v else Env.find id rest

/-- Pseudo-instructions expand textually, before encoding (R48). -/
def expand (c : Source) : Source :=
  match c.mnem, c.operands with
  | .wadd, l => ⟨.add, l⟩
  | .wsub, l => ⟨.sub, l⟩
  | .not, [a] => ⟨.xor, [a, .lit 15]⟩
  | .neg, [a] => ⟨.sub, [.lit 0, a]⟩
  | .inc, [a] => ⟨.add, [a, .lit 1]⟩
  | .dec, [a] => ⟨.sub, [a, .lit 1]⟩
  | .frombyte, l => ⟨.trunc, l⟩
  | .tobyte, l => ⟨.zext, l⟩
  | m, l => ⟨m, l⟩

/-- A written number in its operand position: out of range is refused, never wrapped (R49). -/
def literalValue (k : OperandKind) (n : Nat) : Except AsmReject Nat :=
  match k with
  | .nibble => if n < 16 then .ok n else .error (.nibbleOutOfRange n)
  | .byte => if n < 256 then .ok n else .error (.byteOutOfRange n)
  | .amount => .ok n

/-- A kept value in its operand position: where a nibble is expected, its low nibble (R47); where a byte or an amount
is, all of it, since R47 shortens it for a nibble alone (DEDUCED, log entry 11). -/
def keptValue (k : OperandKind) (v : Byte) : Nat :=
  match k with
  | .nibble => v.toNat % 16
  | .byte => v.toNat
  | .amount => v.toNat

/-- The value of one operand. -/
def operandValue (env : Env) (k : OperandKind) (o : SrcOperand) : Except AsmReject Nat :=
  match o with
  | .lit n => literalValue k n
  | .name id =>
    match env.find id with
    | some v => .ok (keptValue k v)
    | none => .error (.unboundName id)

/-- The values of a command's operands, one for each position. -/
def operandValues (env : Env) : List OperandKind → List SrcOperand → Except AsmReject (List Nat)
  | [], [] => .ok []
  | k :: ks, o :: os =>
    match operandValue env k o with
    | .error r => .error r
    | .ok n =>
      match operandValues env ks os with
      | .error r => .error r
      | .ok ns => .ok (n :: ns)
  | _, _ => .error .wrongOperandCount

/-- The command of a core mnemonic and its operand values (R42, R49): a rotation amount is encoded as
`n mod 4`, ZEXT's `b` as 0, and TRUNC's byte as its two nibbles. -/
def encodeValues (m : Mnem) (l : List Nat) : Except AsmReject Instr :=
  match m, l with
  | .add, [a, b] => .ok (.add (bits4 a) (bits4 b))
  | .sub, [a, b] => .ok (.sub (bits4 a) (bits4 b))
  | .xor, [a, b] => .ok (.xor (bits4 a) (bits4 b))
  | .or, [a, b] => .ok (.or (bits4 a) (bits4 b))
  | .and, [a, b] => .ok (.and (bits4 a) (bits4 b))
  | .rol, [a, n] => .ok (.rol (bits4 a) (bits4 (n % 4)))
  | .ror, [a, n] => .ok (.ror (bits4 a) (bits4 (n % 4)))
  | .zext, [a] => .ok (.zext (bits4 a) 0)
  | .trunc, [x] => .ok (.trunc (bits4 (x / 16)) (bits4 x))
  | _, _ => .error .wrongOperandCount

/-- The assembler: expand, substitute and check the operands, encode (R47 to R49). -/
def assemble (env : Env) (c : Source) : Except AsmReject Instr :=
  match operandValues env (expand c).mnem.kinds (expand c).operands with
  | .error r => .error r
  | .ok l => encodeValues (expand c).mnem l

/-- The one error the host raises before it issues a conversion (R52, R98). -/
inductive HostError where
  /-- `from_bytes` on an empty buffer: the host issues nothing (R52). -/
  | emptyInput
deriving DecidableEq, Repr

/-- `from_native_byte(n)` is `TRUNC n` (R52). -/
def fromNativeByte (n : Byte) : Instr := .trunc (n.extractLsb' 4 4) (n.extractLsb' 0 4)

/-- `to_native_byte(value)` is `ZEXT value` (R52). -/
def toNativeByte (v : U4) : Instr := .zext v 0

/-- `from_bytes(buffer)` is `TRUNC buffer[0]`; on an empty buffer the host reports it (R52, C5). -/
def fromBytes (buffer : List Byte) : Except HostError Instr :=
  match buffer with
  | [] => .error .emptyInput
  | x :: _ => .ok (fromNativeByte x)

end Sys2Proof.Machine
end

