-- ==== Sys2Proof/Machine/AsmText.lean ====
section
/-! DEFINITION. Machine/AsmText.lean: reading one line of assembler text (30_encoding.md R47). What R47 leaves open
of the characters (names, spaces, the case of digits) is log entry 11. -/

namespace Sys2Proof.Machine

/-- A token of a line. -/
inductive Token where
  | word (cs : List Char)
  | comma
  | equals
deriving DecidableEq, Repr

/-- The upper case of an ASCII letter. -/
def upper (c : Char) : Char := if 97 ≤ c.toNat ∧ c.toNat ≤ 122 then Char.ofNat (c.toNat - 32) else c

/-- The characters before a comment (R47). -/
def beforeComment : List Char → List Char
  | [] => []
  | c :: cs => if c = ';' then [] else c :: beforeComment cs

/-- Close the word being read, if there is one; it was gathered backwards. -/
def closeWord (w : List Char) (ts : List Token) : List Token := if w.isEmpty then ts else .word w.reverse :: ts

/-- The tokens of a line; `w` is the word being read, backwards. -/
def tokens : List Char → List Char → List Token
  | w, [] => closeWord w []
  | w, c :: cs =>
    if c = ' ' ∨ c = '\t' then closeWord w (tokens [] cs)
    else if c = ',' then closeWord w (.comma :: tokens [] cs)
    else if c = '=' then closeWord w (.equals :: tokens [] cs)
    else tokens (c :: w) cs

/-- The value of a digit in a base up to 16. -/
def digit (base : Nat) (c : Char) : Option Nat :=
  let n := (upper c).toNat
  let d := if 48 ≤ n ∧ n ≤ 57 then n - 48 else if 65 ≤ n ∧ n ≤ 70 then n - 55 else base
  if d < base then some d else none

/-- The number a string of digits writes, after the value `acc` of those already read. -/
def digits (base acc : Nat) : List Char → Option Nat
  | [] => some acc
  | c :: cs =>
    match digit base c with
    | some d => digits base (acc * base + d) cs
    | none => none

/-- A number: decimal, `0x` hexadecimal or `0b` binary (R47). -/
def number (cs : List Char) : Option Nat :=
  match cs with
  | '0' :: 'x' :: d :: ds => digits 16 0 (d :: ds)
  | '0' :: 'b' :: d :: ds => digits 2 0 (d :: ds)
  | d :: ds => digits 10 0 (d :: ds)
  | [] => none

/-- A word that may name a kept value: it does not begin with a decimal digit and is not `MIN` or `MAX`. R47 does
not define a name; this is the model's, for operands and destinations alike (DESIGN CHOICE, log entry 11). -/
def isName : List Char → Bool
  | [] => false
  | c :: cs => !(digit 10 c).isSome && (c :: cs) != ['M', 'I', 'N'] && (c :: cs) != ['M', 'A', 'X']

/-- An operand: a number, the symbol `MIN` or `MAX`, or a name (R47, R19). R47 gives the three notations and the two
symbols for the nibbles `a` and `b` only, and for `n` and `x` a range; reading them alike in every position is the
model's (DESIGN CHOICE, log entry 11). -/
def operandOf (cs : List Char) : Except AsmReject SrcOperand :=
  if cs = ['M', 'I', 'N'] then .ok (.lit (nat MIN))
  else if cs = ['M', 'A', 'X'] then .ok (.lit (nat MAX))
  else
    match cs with
    | [] => .error .badLine
    | c :: _ =>
      if (digit 10 c).isSome then
        match number cs with
        | some n => .ok (.lit n)
        | none => .error (.badNumber cs)
      else .ok (.name cs)

/-- The mnemonics as they are written (R47, R48). -/
def mnemonics : List (List Char × Mnem) :=
  [ (['A', 'D', 'D'], .add), (['S', 'U', 'B'], .sub), (['X', 'O', 'R'], .xor), (['O', 'R'], .or),
    (['A', 'N', 'D'], .and), (['R', 'O', 'L'], .rol), (['R', 'O', 'R'], .ror), (['Z', 'E', 'X', 'T'], .zext),
    (['T', 'R', 'U', 'N', 'C'], .trunc) ] ++
  [ (['W', 'A', 'D', 'D'], .wadd), (['W', 'S', 'U', 'B'], .wsub), (['N', 'O', 'T'], .not), (['N', 'E', 'G'], .neg),
    (['I', 'N', 'C'], .inc), (['D', 'E', 'C'], .dec), (['F', 'R', 'O', 'M', 'B', 'Y', 'T', 'E'], .frombyte),
    (['T', 'O', 'B', 'Y', 'T', 'E'], .tobyte) ]

/-- A mnemonic, in either case (R47). -/
def mnemOf (cs : List Char) : Except AsmReject Mnem :=
  match mnemonics.lookup (cs.map upper) with
  | some m => .ok m
  | none => .error (.unknownMnemonic cs)

/-- Operands separated by commas (R47). -/
def operandsOf : List Token → Except AsmReject (List SrcOperand)
  | [] => .ok []
  | [.word w] =>
    match operandOf w with
    | .ok o => .ok [o]
    | .error r => .error r
  | .word w :: .comma :: rest =>
    match operandOf w, operandsOf rest with
    | .ok o, .ok (p :: os) => .ok (o :: p :: os)
    | .error r, _ => .error r
    | _, .error r => .error r
    | _, .ok [] => .error .badLine
  | _ => .error .badLine

/-- A command: a mnemonic and its operands. -/
def sourceOf (ts : List Token) : Except AsmReject Source :=
  match ts with
  | .word m :: rest =>
    match mnemOf m, operandsOf rest with
    | .ok m, .ok os => .ok ⟨m, os⟩
    | .error r, _ => .error r
    | _, .error r => .error r
  | _ => .error .badLine

/-- A line of text: one command, plain or after `name =` (R47). Two points are the model's (DESIGN CHOICE, log entry
11): R47 says one command per line and nothing of a line without one, and a blank line or a comment alone is read here
as no command; and it does not say which words may stand before `=`, where a word that is no name, `MIN`, `MAX` or a
number among them, is refused. -/
def lineOf (cs : List Char) : Except AsmReject (Option HostLine) :=
  match tokens [] (beforeComment cs) with
  | [] => .ok none
  | .word n :: .equals :: rest =>
    if isName n then
      match sourceOf rest with
      | .ok c => .ok (some ⟨some n, c⟩)
      | .error r => .error r
    else .error (.badName n)
  | ts =>
    match sourceOf ts with
    | .ok c => .ok (some ⟨none, c⟩)
    | .error r => .error r

end Sys2Proof.Machine
end

