-- ==== Sys2Proof/Machine/Flags.lean ====
section
/-! DEFINITION. Machine/Flags.lean: the block has no flags and no condition codes (10_state.md R15); its only
status is `ill`, which works from `op` alone (60_exceptions.md R91, 30_encoding.md R44). -/

namespace Sys2Proof.Machine

/-- `op` is reserved: 0x9 to 0xF, and 0x4 on a block without AND (R44). -/
def reservedOp (build : Build) (op : U4) : Bool := 0x9#4 ≤ op || (op == 0x4#4 && !build.hasAnd)

end Sys2Proof.Machine
end

