-- ==== Sys2Proof/Machine/Eval.lean ====
section
/-! DEFINITION. Machine/Eval.lean: the whole block as one function of its input ports, as rule R42
(30_encoding.md) writes it. exec does not use it: the settled outputs are stated against it (R112). -/

namespace Sys2Proof.Machine

/-- `eval(op, a, b) -> (y, ill)` (R42). -/
def eval (build : Build) (op a b : U4) : Byte × Bool :=
  if op = 0x0#4 then (zext8 (add4 a b), false)
  else if op = 0x1#4 then (zext8 (sub4 build.subTable a b), false)
  else if op = 0x2#4 then (zext8 (a ^^^ b), false)
  else if op = 0x3#4 then (zext8 (a ||| b), false)
  else if op = 0x4#4 then (if build.hasAnd then (zext8 (a &&& b), false) else (0x00#8, true))
  else if op = 0x5#4 then (zext8 (rol4 a (amount b)), false)
  else if op = 0x6#4 then (zext8 (ror4 a (amount b)), false)
  else if op = 0x7#4 then (zext8 a, false)
  else if op = 0x8#4 then (zext8 (lowNibble (byteOperand a b)), false)
  else (0x00#8, true)

end Sys2Proof.Machine
end

