-- ==== Sys2Proof/Safety.lean ====
section
/-! DEFINITION. Safety.lean: the conditions claims are stated in: the invariant of the ports and their settling
(70_reset_and_hazards.md R112, R116), a host that samples settled outputs alone (R113, R117), legal commands (R44, R90),
and what counts as a result (R117). -/

namespace Sys2Proof.Machine

/-- The command is legal on the build: its `op` is not reserved (R44, R90). -/
def legal (build : Build) (i : Instr) : Bool := !reservedOp build i.op

/-- The outputs are the latest free draw (R111, R116, log entry 3). -/
def State.Drawn (s : State) : Prop :=
  0 < s.draws ∧ s.y = Config.freeY (s.draws - 1) ∧ s.ill = Config.freeIll (s.draws - 1)

/-- What every reachable state of the ports meets. -/
structure State.Inv (s : State) : Prop where
  /-- `T_SETTLE` is a positive duration (92_eei_decisions.md, parameters). -/
  tSettle_pos : 0 < s.build.tSettle
  /-- Nothing takes longer than `T_SETTLE` to settle (R112). -/
  left_le : s.settleLeft ≤ s.build.tSettle
  /-- Inputs that nothing drives do not settle (the model's reading, DESIGN CHOICE, log entry 9). -/
  undriven : s.driven = false → s.settleLeft = s.build.tSettle
  /-- Once settled, `(y, ill) = eval(op, a, b)` (R112). -/
  outputs : s.settled = true → (s.y, s.ill) = eval s.build s.op s.a s.b
  /-- Until then they are a free draw (R111, R116). -/
  drawn : s.settled = false → s.Drawn

/-- The host's next action is no sample of unsettled outputs (R113, R117). -/
def State.samplesSettled (s : State) : Prop := s.script.head? = some .sample → s.settled = true

/-- A sample as a result: none when `ill = 1` (R91, R117). -/
def Sample.result (x : Sample) : Option Byte := if x.ill then none else some x.y

end Sys2Proof.Machine
end

