-- ==== Sys2Proof/Machine/HostProgram.lean ====
section
/-! DEFINITION. Machine/HostProgram.lean: straight-line host programs over the block (30_encoding.md R47,
70_reset_and_hazards.md R117, R118). Their branches and loops are the host's own (R13). -/

namespace Sys2Proof.Machine

/-- How a host program stops before its end. -/
inductive HostStop where
  /-- The assembler refuses a line (R49). -/
  | rejected (r : AsmReject)
  /-- The block does not go on; by the completion statements this never happens. -/
  | stuck
deriving DecidableEq, Repr

/-- The host keeps a sample's `y` under a name; a sample with `ill = 1` is no result and is discarded
(R117, log entry 12). -/
def keep (dest : Option Name) (x : Sample) (env : Env) : Env :=
  match dest, x.result with
  | some n, some v => (n, v) :: env
  | _, _ => env

/-- One line of a host program: the host substitutes its names, encodes, runs the command and keeps the result. -/
def runLine (l : HostLine) (env : Env) (s : State) : Except HostStop (Env × State) :=
  match assemble env l.source with
  | .error r => .error (.rejected r)
  | .ok i =>
    match step (s.withScript (.command (encode i) :: s.script)) with
    | .next t => .ok (keep l.dest ⟨t.y, t.ill⟩ env, t)
    | .fault _ => .error .stuck
    | .refused _ => .error .stuck

/-- A host program, line by line (R118). -/
def runLines : List HostLine → Env → State → Except HostStop (Env × State)
  | [], env, s => .ok (env, s)
  | l :: rest, env, s =>
    match runLine l env s with
    | .error r => .error r
    | .ok (env', s') => runLines rest env' s'

end Sys2Proof.Machine
end

