-- ==== Sys2Proof/Certificates/Slice0/Obligations.lean ====
section
/-! DEFINITION. Certificates/Slice0/Obligations.lean: the statements for the provers, from the spec's numbered rules. -/

open Sys2Proof Sys2Proof.Machine

/-! ### The encoding -/

/-- Decoding the encoded word of a command of the opcode map gives the command back, every operand field at every
value (R40 to R43). -/
def Obligations.DecodeOfEncodeIsTheCommand : Prop :=
  ∀ i : Instr, i.wellFormed = true → decode (encode i) = i

/-- Every 12-bit word is one well-formed command, and encoding that command gives the word (R40). -/
def Obligations.EveryWordIsOneCommand : Prop :=
  ∀ c : Command, (decode c).wellFormed = true ∧ encode (decode c) = c

/-- R40: `cmd[11:8]`, `cmd[7:4]` and `cmd[3:0]` drive `op`, `a` and `b`; a number is a command word exactly when it
has no bit above `cmd[11]`. -/
def Obligations.CommandWordDrivesThePorts : Prop :=
  (∀ (s : State) (c : Command) (rest : List HostAction), s.script = .issue c :: rest →
    ∃ t, step s = .next t ∧ t.op.toNat = c.toNat / 256 ∧ t.a.toNat = c.toNat / 16 % 16 ∧
      t.b.toNat = c.toNat % 16 ∧ t.driven = true) ∧
  (∀ n : Nat, (∃ c, commandOfNat n = .ok c ∧ c.toNat = n) ↔ n < 4096) ∧
  (∀ n : Nat, commandOfNat n = .error .widerThanCommand ↔ 4096 ≤ n)

/-- The opcode table's masks and patterns: exactly one row covers a word, and the decoder reads that row's
command (opcode_table.json, R42). -/
def Obligations.ExactlyOneOpcodeRowCoversAWord : Prop :=
  ∀ c : Command, (opcodeRows.filter fun r => r.covers c).map OpcodeRow.mnemonic = [(decode c).mnemonic]

/-- The ten encoding examples of 30_encoding.md, and one word of each reserved range (95_test_vectors.md L2.8). -/
def Obligations.DecoderReadsTheSpecsWords : Prop :=
  decodeTableWord 12 0x0CC = some (.add 12 12) ∧ decodeTableWord 12 0x112 = some (.sub 1 2) ∧
  decodeTableWord 12 0x235 = some (.xor 3 5) ∧ decodeTableWord 12 0x334 = some (.or 3 4) ∧
  decodeTableWord 12 0x4CA = some (.and 12 10) ∧ decodeTableWord 12 0x523 = some (.rol 2 3) ∧
  decodeTableWord 12 0x623 = some (.ror 2 3) ∧ decodeTableWord 12 0x7B0 = some (.zext 11 0) ∧
  decodeTableWord 12 0x81B = some (.trunc 1 11) ∧ decodeTableWord 12 0x25F = some (.xor 5 15) ∧
  decodeTableWord 12 0x9AB = some (.reserved9 10 11) ∧
  decodeTableWord 12 0xB12 = some (.reservedAB 0xB 1 2) ∧ decodeTableWord 12 0xE5A = some (.reservedCF 0xE 5 10)

/-! ### The operations -/

/-- R60, R61: ADD. Its op is 0x0; it drives `zext_8` of the sum mod 16 and `ill = 0` and changes nothing else; the
result bits are those of the chain of full-adder cells that starts from 0, and the carry out of cell 3 is 1 exactly
when the sum reaches 16. -/
def Obligations.AddRipplesToTheSumModSixteen : Prop :=
  ∀ (s : State) (a b : U4),
    decode (pack 0x0 a b) = .add a b ∧
    exec (.add a b) s = .next { s with y := BitVec.ofNat 8 ((a.toNat + b.toNat) % 16), ill := false } ∧
    ∀ c : Nat → Bool, c 0 = false →
      (∀ j < 4, c (j + 1) = ((a.getLsbD j && b.getLsbD j) || (c j && (a.getLsbD j ^^ b.getLsbD j)))) →
      (∀ j < 4, (BitVec.ofNat 8 ((a.toNat + b.toNat) % 16)).getLsbD j = ((a.getLsbD j ^^ b.getLsbD j) ^^ c j)) ∧
      (c 4 = true ↔ 16 ≤ a.toNat + b.toNat)

/-- R62, R63, R65: SUB. Its op is 0x1; it drives `zext_8(r)` and `ill = 0` and changes nothing else; the bits of `r`
are those of the chain of full-subtractor cells that starts from 0, by the table the block was built with; under
`ARITH` they make `a - b mod 16`, and the borrow out of cell 3 is 1 exactly when `a < b`. -/
def Obligations.SubRipplesToTheDifference : Prop :=
  ∀ (s : State) (a b : U4),
    decode (pack 0x1 a b) = .sub a b ∧
    ∃ r : U4, exec (.sub a b) s = .next { s with y := zext8 r, ill := false } ∧
      (s.build.subTable = .arith → r.toNat = (16 + a.toNat - b.toNat) % 16) ∧
      ∀ w : Nat → Bool, w 0 = false →
        (∀ j < 4, w (j + 1) =
          match s.build.subTable with
          | .arith => (!a.getLsbD j && b.getLsbD j) || (w j && !(a.getLsbD j ^^ b.getLsbD j))
          | .literal => !a.getLsbD j && (b.getLsbD j || w j)) →
        (∀ j < 4, r.getLsbD j = ((a.getLsbD j ^^ b.getLsbD j) ^^ w j)) ∧
        (s.build.subTable = .arith → (w 4 = true ↔ a.toNat < b.toNat))

/-- The 36 pairs of 95_test_vectors.md L2.2a: `(a, b)` and the result under `LITERAL`. -/
def literalPairs : List ((Nat × Nat) × Nat) :=
  [((2, 3), 0x3), ((2, 7), 0xF), ((2, 11), 0xB), ((2, 15), 0x7), ((4, 5), 0x7), ((4, 6), 0x6), ((4, 7), 0x5),
   ((4, 13), 0xF), ((4, 14), 0xE), ((4, 15), 0xD), ((5, 6), 0x7), ((5, 7), 0x6)] ++
  [((5, 14), 0xF), ((5, 15), 0xE), ((6, 3), 0x7), ((6, 7), 0x3), ((6, 11), 0xF), ((6, 15), 0xB), ((10, 3), 0xB),
   ((10, 7), 0x7), ((10, 11), 0x3), ((10, 15), 0xF), ((12, 5), 0xF), ((12, 6), 0xE)] ++
  [((12, 7), 0xD), ((12, 13), 0x7), ((12, 14), 0x6), ((12, 15), 0x5), ((13, 6), 0xF), ((13, 7), 0xE),
   ((13, 14), 0x7), ((13, 15), 0x6), ((14, 3), 0xF), ((14, 7), 0xB), ((14, 11), 0x7), ((14, 15), 0x3)]

/-- R65: on a block built with the document's table, SUB gives the 36 listed results, none of them the arithmetic
one, and `a - b mod 16` on every other pair. -/
def Obligations.LiteralSubDiffersOnThirtySixPairs : Prop :=
  literalPairs.length = 36 ∧
  (∀ p ∈ literalPairs, p.2 ≠ (16 + p.1.1 - p.1.2) % 16) ∧
  ∀ (s : State) (a b : U4), s.build.subTable = .literal →
    exec (.sub a b) s =
      .next { s with y := BitVec.ofNat 8 ((literalPairs.lookup (a.toNat, b.toNat)).getD
                            ((16 + a.toNat - b.toNat) % 16)),
                     ill := false }

/-- R70: XOR. Its op is 0x2; each result bit is the exclusive or of the two operand bits of its position. -/
def Obligations.XorWorksBitByBit : Prop :=
  ∀ (s : State) (a b : U4),
    decode (pack 0x2 a b) = .xor a b ∧
    ∃ r : U4, (∀ j < 4, r.getLsbD j = (a.getLsbD j ^^ b.getLsbD j)) ∧
      exec (.xor a b) s = .next { s with y := zext8 r, ill := false }

/-- R71: OR. Its op is 0x3; each result bit is the or of the two operand bits of its position. -/
def Obligations.OrWorksBitByBit : Prop :=
  ∀ (s : State) (a b : U4),
    decode (pack 0x3 a b) = .or a b ∧
    ∃ r : U4, (∀ j < 4, r.getLsbD j = (a.getLsbD j || b.getLsbD j)) ∧
      exec (.or a b) s = .next { s with y := zext8 r, ill := false }

/-- R72: AND. Its op is 0x4; with `HAS_AND` each result bit is the and of the two operand bits of its position;
without it the op is reserved, and the block drives `y = 0x00`, `ill = 1`. -/
def Obligations.AndWorksBitByBitWhereTheBlockHasIt : Prop :=
  ∀ (s : State) (a b : U4),
    decode (pack 0x4 a b) = .and a b ∧
    (s.build.hasAnd = true →
      ∃ r : U4, (∀ j < 4, r.getLsbD j = (a.getLsbD j && b.getLsbD j)) ∧
        exec (.and a b) s = .next { s with y := zext8 r, ill := false }) ∧
    (s.build.hasAnd = false → exec (.and a b) s = .next { s with y := 0x00, ill := true })

/-- R80, R81: ROL. Its op is 0x5; the amount is `nat(b) mod 4`; result bit `j` is bit `(j - k) mod 4` of `a`, which
is `(a * 2^k + a / 2^(4-k)) mod 16`. -/
def Obligations.RolRotatesTowardsHigherWeight : Prop :=
  ∀ (s : State) (a b : U4),
    decode (pack 0x5 a b) = .rol a b ∧
    ∃ r : U4, exec (.rol a b) s = .next { s with y := zext8 r, ill := false } ∧
      (∀ j < 4, r.getLsbD j = a.getLsbD ((j + (4 - b.toNat % 4)) % 4)) ∧
      r.toNat = (a.toNat * 2 ^ (b.toNat % 4) + a.toNat / 2 ^ (4 - b.toNat % 4)) % 16

/-- R80, R82: ROR. Its op is 0x6; the amount is `nat(b) mod 4`; result bit `j` is bit `(j + k) mod 4` of `a`, which
is `(a / 2^k + a * 2^(4-k)) mod 16`. -/
def Obligations.RorRotatesTowardsLowerWeight : Prop :=
  ∀ (s : State) (a b : U4),
    decode (pack 0x6 a b) = .ror a b ∧
    ∃ r : U4, exec (.ror a b) s = .next { s with y := zext8 r, ill := false } ∧
      (∀ j < 4, r.getLsbD j = a.getLsbD ((j + b.toNat % 4) % 4)) ∧
      r.toNat = (a.toNat / 2 ^ (b.toNat % 4) + a.toNat * 2 ^ (4 - b.toNat % 4)) % 16

/-- R50: ZEXT. Its op is 0x7; `y = {0b0000, a}`, whose value is the sum of the weights of the set bits of `a`;
`b` is not read. -/
def Obligations.ZextExtendsTheNibble : Prop :=
  ∀ (s : State) (a b : U4),
    decode (pack 0x7 a b) = .zext a b ∧
    exec (.zext a b) s = .next { s with y := 0b0000#4 ++ a, ill := false } ∧
    (0b0000#4 ++ a).toNat =
      (a.getLsbD 0).toNat + 2 * (a.getLsbD 1).toNat + 4 * (a.getLsbD 2).toNat + 8 * (a.getLsbD 3).toNat

/-- R20, R51: TRUNC. Its op is 0x8; the byte is `x = {a, b}`, and `y` is `x mod 16`, whatever the high nibble. -/
def Obligations.TruncKeepsTheLowNibble : Prop :=
  ∀ (s : State) (a b : U4),
    decode (pack 0x8 a b) = .trunc a b ∧
    exec (.trunc a b) s = .next { s with y := BitVec.ofNat 8 ((16 * a.toNat + b.toNat) % 16), ill := false }

/-- R91: ILLEGAL_OP holds exactly when op is 0x9 to 0xF, or 0x4 on a block without AND; then the block drives
`ill = 1` and `y = 0x00`, for every `a` and `b`, and nothing else happens. -/
def Obligations.ReservedOpsDriveIllegal : Prop :=
  (∀ (s : State) (a b : U4), exec (.reserved9 a b) s = .next { s with y := 0x00, ill := true }) ∧
  (∀ (s : State) (op a b : U4), exec (.reservedAB op a b) s = .next { s with y := 0x00, ill := true }) ∧
  (∀ (s : State) (op a b : U4), exec (.reservedCF op a b) s = .next { s with y := 0x00, ill := true }) ∧
  (∀ (s : State) (op a b : U4), 9 ≤ op.toNat ∨ (op = 0x4 ∧ s.build.hasAnd = false) →
    exec (decode (pack op a b)) s = .next { s with y := 0x00, ill := true }) ∧
  (∀ (s : State) (op a b : U4), ¬ (9 ≤ op.toNat ∨ (op = 0x4 ∧ s.build.hasAnd = false)) →
    ∃ v : Byte, exec (decode (pack op a b)) s = .next { s with y := v, ill := false })

/-- R44: the reserved op values are 0x9 to 0xF, and 0x4 as well on a block without AND: after a command `ill = 1`
exactly when its op is one of them, whatever `a` and `b` hold, and then `y = 0x00`. -/
def Obligations.IllegalExactlyOnReservedOps : Prop :=
  ∀ (s : State) (op a b : U4),
    ∃ t, exec (decode (pack op a b)) s = .next t ∧
      (t.ill = true ↔ 9 ≤ op.toNat ∨ (op = 0x4 ∧ s.build.hasAnd = false)) ∧
      (t.ill = true → t.y = 0x00)

/-- R90: a legal command completes with `ill = 0` and a `y` whose high nibble is 0 (R12), for every value of its
operands, and changes nothing but the two outputs. -/
def Obligations.EveryLegalCommandCompletes : Prop :=
  ∀ (s : State) (i : Instr), i.wellFormed = true → legal s.build i = true →
    ∃ v : Byte, v.toNat ≤ 15 ∧ exec i s = .next { s with y := v, ill := false }

/-- No command changes anything but the two outputs (R10, R11, R12, R91). -/
def Obligations.CommandsChangeOnlyTheOutputs : Prop :=
  ∀ (s : State) (i : Instr), ∃ t, exec i s = .next t ∧
    t.build = s.build ∧ t.op = s.op ∧ t.a = s.a ∧ t.b = s.b ∧ t.driven = s.driven ∧
    t.settleLeft = s.settleLeft ∧ t.draws = s.draws ∧ t.script = s.script ∧ t.samples = s.samples

/-- R42: the command a word decodes to drives what the block's one function `eval` gives for its fields. -/
def Obligations.DecodedCommandsComputeEval : Prop :=
  ∀ (s : State) (op a b : U4),
    exec (decode (pack op a b)) s =
      .next { s with y := (eval s.build op a b).1, ill := (eval s.build op a b).2 }

/-- R45: `b` under ZEXT, `b[3:2]` under ROL and ROR, `a` under TRUNC, and `a` and `b` under a reserved op do not
affect the outputs. -/
def Obligations.UnreadFieldsDoNotMatter : Prop :=
  ∀ (s : State) (op a b a' b' : U4),
    exec (.zext a b) s = exec (.zext a b') s ∧
    (b.toNat % 4 = b'.toNat % 4 → exec (.rol a b) s = exec (.rol a b') s ∧ exec (.ror a b) s = exec (.ror a b') s) ∧
    exec (.trunc a b) s = exec (.trunc a' b) s ∧
    (reservedOp s.build op = true → exec (decode (pack op a b)) s = exec (decode (pack op a' b')) s)

/-! ### The laws of the operations -/

/-- R64's laws of ADD and SUB under `ARITH`, on the adder and the subtractor. -/
def Obligations.ArithmeticLaws : Prop :=
  (∀ a b : U4, (add4 a b).toNat = (a.toNat + b.toNat) % 16) ∧
  (∀ a b : U4, (sub4 .arith a b).toNat = (((a.toNat : Int) - b.toNat) % 16).toNat) ∧
  (∀ a b : U4, add4 a b = add4 b a) ∧
  (∀ a b c : U4, add4 (add4 a b) c = add4 a (add4 b c)) ∧
  (∀ a : U4, add4 a 0 = a) ∧
  (∀ a b : U4, add4 (sub4 .arith a b) b = a ∧ sub4 .arith (add4 a b) b = a) ∧
  (∀ a b : U4, sub4 .arith a b = add4 a (sub4 .arith 0 b)) ∧
  (∀ a b : U4, (carry a b 4 = true ↔ 16 ≤ a.toNat + b.toNat) ∧ (borrow .arith a b 4 = true ↔ a.toNat < b.toNat))

/-- R73's laws of the gates. -/
def Obligations.GateLaws : Prop :=
  (∀ a b : U4, xor4 a b = xor4 b a ∧ or4 a b = or4 b a ∧ and4 a b = and4 b a) ∧
  (∀ a b c : U4, xor4 (xor4 a b) c = xor4 a (xor4 b c) ∧ or4 (or4 a b) c = or4 a (or4 b c) ∧
    and4 (and4 a b) c = and4 a (and4 b c)) ∧
  (∀ a b : U4, xor4 a 0 = a ∧ xor4 (xor4 a b) b = a) ∧
  (∀ a b : U4, xor4 a b = and4 (or4 a b) (xor4 (and4 a b) MAX)) ∧
  (∀ a b : U4, and4 a b = 0 → add4 a b = xor4 a b)

/-- R73's last law AS WRITTEN: `ADD4(a, b) = a ^ b` exactly when `a & b = 0`. It fails: a carry out of cell 3 is
discarded (R61), so `8 + 8` and `8 ^ 8` are both 0 while `8 & 8` is not (log entry 15). -/
def Obligations.AddIsXorExactlyWhenAndIsZero : Prop :=
  ∀ a b : U4, add4 a b = xor4 a b ↔ and4 a b = 0

/-- What holds of R73's last law (log entry 15): no carry is generated, the discarded `c[4]` among them, exactly when
`a & b = 0`; the sum with its carry out is `a ^ b` exactly then; the four bits that are left of it are `a ^ b` exactly
when no carry enters a cell, which is when `a & b` is 0 or has bit 3 alone. -/
def Obligations.AddIsXorExactlyWhenNoCarryEnters : Prop :=
  (∀ a b : U4, (∀ j ≤ 4, carry a b j = false) ↔ and4 a b = 0) ∧
  (∀ a b : U4, (carry a b 4 = false ∧ add4 a b = xor4 a b) ↔ and4 a b = 0) ∧
  (∀ a b : U4, add4 a b = xor4 a b ↔ ∀ j < 4, carry a b j = false) ∧
  (∀ a b : U4, add4 a b = xor4 a b ↔ and4 a b = 0 ∨ and4 a b = 0b1000)

/-- R83's laws of rotation, for amounts of any size. -/
def Obligations.RotationLaws : Prop :=
  ∀ (a : U4) (n m : Nat),
    rol4 a n = rol4 a (n % 4) ∧ ror4 a n = ror4 a (n % 4) ∧
    rol4 a n = ror4 a ((4 - n % 4) % 4) ∧
    ror4 (rol4 a n) n = a ∧
    rol4 (rol4 a n) m = rol4 a ((n + m) % 4) ∧
    rol4 a 4 = a ∧ ror4 a 4 = a ∧
    ((List.range 4).filter fun j => (rol4 a n).getLsbD j).length = ((List.range 4).filter fun j => a.getLsbD j).length

/-- R81, R82 in the document's own indices (R26): the output bit at index `i` is the input bit at index
`(i + n) mod 4` under ROL and at the residue of `i + 4 - n` under ROR, for every amount `n`. -/
def Obligations.RotationsInDocumentIndices : Prop :=
  ∀ (a : U4) (n i : Nat), i < 4 →
    docBit (rol4 a n) i = docBit a ((i + n) % 4) ∧
    docBit (ror4 a n) i = docBit a (((i : Int) + 4 - n) % 4).toNat

/-- R80: two stages, one of 1 selected by `b[0]` and one of 2 selected by `b[1]`, in either order, rotate by
`nat(b[1:0])`. -/
def Obligations.TwoStagesMakeTheBarrelRotator : Prop :=
  ∀ a b : U4,
    barrel rol4 a b = rol4 a (amount b) ∧ barrel ror4 a b = ror4 a (amount b) ∧
    rotStage rol4 1 (bit b 0) (rotStage rol4 2 (bit b 1) a) = barrel rol4 a b ∧
    rotStage ror4 1 (bit b 0) (rotStage ror4 2 (bit b 1) a) = barrel ror4 a b

/-- R53: the conversion laws, as the two commands run one after the other. -/
def Obligations.ConversionLaws : Prop :=
  (∀ (s : State) (v : U4), ∃ t u, exec (toNativeByte v) s = .next t ∧ exec (fromNativeByte t.y) t = .next u ∧
    lowNibble u.y = v) ∧
  (∀ (s : State) (x : Byte), ∃ t u, exec (fromNativeByte x) s = .next t ∧
    exec (toNativeByte (lowNibble t.y)) t = .next u ∧ u.y.toNat = x.toNat % 16) ∧
  (∀ (s : State) (x x' : Byte),
    exec (fromNativeByte x) s = exec (fromNativeByte x') s ↔ x.toNat % 16 = x'.toNat % 16)

/-! ### Settling, sampling and the host's protocol -/

/-- A step whose next action is a command runs the decoded command: the host drives the word's fields on the ports
and holds them for `T_SETTLE`, exec gives the settled outputs, and the host takes the sample (R112, R117). -/
def Obligations.StepRunsTheDecodedCommand : Prop :=
  ∀ (s : State) (i : Instr) (rest : List HostAction),
    i.wellFormed = true → s.script = .command (encode i) :: rest →
    ∃ p, p = ((s.withScript rest).present (encode i)).settleNow ∧
      p.op = i.op ∧ p.a = i.a ∧ p.b = i.b ∧ p.driven = true ∧ p.settleLeft = 0 ∧
      p.build = s.build ∧ p.script = rest ∧ p.samples = s.samples ∧
      step s = onNext (exec i p) State.takeSample

/-- R112: driven inputs held for the time left settle, and the outputs are then `eval` of the inputs and stay so;
held for less, they are a fresh draw (R116) and the time left counts down. Held inputs that nothing drives are drawn
again and never settle, the model's choice (log entry 9). A step of a host with nothing left to do is a hold of one
unit, the model's choice too (log entry 7). -/
def Obligations.HoldingSettlesTheOutputs : Prop :=
  ∀ (s : State) (t : Nat) (rest : List HostAction), s.Inv →
    (s.script = .hold t :: rest ∨ (s.script = [] ∧ rest = [] ∧ t = 1)) →
    (s.driven = true → s.settleLeft ≤ t → step s =
      .next { s with script := rest, settleLeft := 0,
                     y := (eval s.build s.op s.a s.b).1, ill := (eval s.build s.op s.a s.b).2 }) ∧
    (s.driven = true → t < s.settleLeft → step s =
      .next { s with script := rest, settleLeft := s.settleLeft - t,
                     y := Config.freeY s.draws, ill := Config.freeIll s.draws, draws := s.draws + 1 }) ∧
    (s.driven = false → step s =
      .next { s with script := rest,
                     y := Config.freeY s.draws, ill := Config.freeIll s.draws, draws := s.draws + 1 })

/-- R113: changing any input bit starts a new command, and its settling time starts there; until then the outputs
are a fresh draw. A command issued on inputs that nothing drives, the first after reset or after a release, is a new
one too, the model's choice (log entry 9). Driving the levels that stand changes nothing (log entry 7). -/
def Obligations.InputChangeRestartsSettling : Prop :=
  ∀ (s : State) (c : Command) (rest : List HostAction), s.script = .issue c :: rest →
    ((s.driven = false ∨ pack s.op s.a s.b ≠ c) → step s =
      .next { s with script := rest, op := opField c, a := aField c, b := bField c, driven := true,
                     settleLeft := s.build.tSettle,
                     y := Config.freeY s.draws, ill := Config.freeIll s.draws, draws := s.draws + 1 }) ∧
    (s.driven = true → pack s.op s.a s.b = c → step s = .next { s with script := rest })

/-- R112, R113: however the holding is divided, a command held for `T_SETTLE` in all is settled, at the outputs of
`eval`; a new command held for less in all is not. That a command issued on undriven inputs is a new one is log
entry 9. -/
def Obligations.HoldsAddUpToTheSettlingTime : Prop :=
  ∀ (s : State) (c : Command) (ts : List Nat) (rest : List HostAction),
    s.Inv → s.script = .issue c :: (ts.map HostAction.hold ++ rest) →
    ∃ t : State, core.run (1 + ts.length) s = .next t ∧ t.script = rest ∧ pack t.op t.a t.b = c ∧
      t.build = s.build ∧ t.samples = s.samples ∧
      (s.build.tSettle ≤ ts.sum → t.settled = true ∧
        (t.y, t.ill) = eval s.build (opField c) (aField c) (bField c)) ∧
      (ts.sum < s.build.tSettle → (s.driven = false ∨ pack s.op s.a s.b ≠ c) → t.settled = false)

/-- R29, R117: a settled sample is the outputs as they stand, and leaves all but the list of samples as it was, so
that a second sample gives the same. -/
def Obligations.SettledSampleChangesNothing : Prop :=
  ∀ (s : State) (rest : List HostAction), s.script = .sample :: rest → s.settled = true →
    step s = .next { s with script := rest, samples := s.samples ++ [⟨s.y, s.ill⟩] }

/-- R113, R116: a sample of unsettled outputs takes them as they stand and draws them again, and leaves the inputs and
the time left as they were; in a state of the invariant the sample is the latest free draw (log entry 3). -/
def Obligations.UnsettledSampleIsADraw : Prop :=
  ∀ (s : State) (rest : List HostAction), s.script = .sample :: rest → s.settled = false →
    step s = .next { s with script := rest, samples := s.samples ++ [⟨s.y, s.ill⟩],
                            y := Config.freeY s.draws, ill := Config.freeIll s.draws, draws := s.draws + 1 } ∧
    (s.Inv → 0 < s.draws ∧
      step s = .next { s with script := rest,
                              samples := s.samples ++ [⟨Config.freeY (s.draws - 1), Config.freeIll (s.draws - 1)⟩],
                              y := Config.freeY s.draws, ill := Config.freeIll s.draws, draws := s.draws + 1 })

/-- R111: when power is applied the outputs are a draw; they stay drawn while the driven inputs have been held for
less than `T_SETTLE`, and are `eval` of them from then on. The state the model starts from (log entry 5) is no more
settled. -/
def Obligations.PowerUpOutputsAreFreeUntilHeld : Prop :=
  (∀ (s : State) (t : Nat) (rest : List HostAction),
    0 < s.build.tSettle → s.driven = true → s.script = .powerCycle :: .hold t :: rest →
    ∃ p, core.run 1 s = .next p ∧ p.settled = false ∧ p.y = Config.freeY s.draws ∧ p.ill = Config.freeIll s.draws ∧
      ∃ u, core.run 2 s = .next u ∧
        (t < s.build.tSettle → u.settled = false ∧ u.y = Config.freeY (s.draws + 1) ∧
          u.ill = Config.freeIll (s.draws + 1)) ∧
        (s.build.tSettle ≤ t → u.settled = true ∧ (u.y, u.ill) = eval s.build s.op s.a s.b)) ∧
  (State.reset.settled = false ∧ State.reset.y = Config.freeY 0 ∧ State.reset.ill = Config.freeIll 0)

/-- The model's choice (log entry 9): inputs the host has stopped driving never settle, however long it waits; the
release and each hold draw `y` and `ill` again, and nothing else changes but the drive, the time left and the
script. -/
def Obligations.ReleasedInputsNeverSettle : Prop :=
  ∀ (s : State) (ts : List Nat) (rest : List HostAction),
    s.script = .release :: (ts.map HostAction.hold ++ rest) →
    ∃ t : State, core.run (1 + ts.length) s = .next t ∧ t.settled = false ∧
      t = { s with driven := false, settleLeft := s.build.tSettle, script := rest,
                   y := Config.freeY (s.draws + ts.length), ill := Config.freeIll (s.draws + ts.length),
                   draws := s.draws + ts.length + 1 }

/-- R117: the transaction that runs a command (log entry 6) is the host's three actions: issue it, hold it for
`T_SETTLE`, sample. -/
def Obligations.CommandIsIssueHoldSample : Prop :=
  ∀ (s : State) (c : Command) (rest : List HostAction), s.Inv →
    core.run 1 (s.withScript (.command c :: rest)) =
      core.run 3 (s.withScript (.issue c :: .hold s.build.tSettle :: .sample :: rest))

/-- R10: two commands with equal inputs give equal outputs, whatever came before them: on equal builds, each runs to
the same `y`, `ill` and sample from any two states, and settled states with equal inputs show equal outputs. -/
def Obligations.OutputsDependOnlyOnTheInputs : Prop :=
  (∀ (s₁ s₂ : State) (c : Command) (l₁ l₂ : List HostAction), s₁.build = s₂.build →
    s₁.script = .command c :: l₁ → s₂.script = .command c :: l₂ →
    ∃ (t₁ t₂ : State) (x : Sample), step s₁ = .next t₁ ∧ step s₂ = .next t₂ ∧
      t₁.y = t₂.y ∧ t₁.ill = t₂.ill ∧ x = ⟨t₁.y, t₁.ill⟩ ∧
      t₁.samples = s₁.samples ++ [x] ∧ t₂.samples = s₂.samples ++ [x]) ∧
  (∀ s₁ s₂ : State, s₁.Inv → s₂.Inv → s₁.settled = true → s₂.settled = true → s₁.build = s₂.build →
    s₁.op = s₂.op → s₁.a = s₂.a → s₁.b = s₂.b → s₁.y = s₂.y ∧ s₁.ill = s₂.ill)

/-- R118, R31, R112: a program of commands, each run as the transaction of log entry 6, runs to its end, and its
result is the list of their samples in order, each `eval` of its own command. -/
def Obligations.ProgramResultIsItsSettledSamples : Prop :=
  ∀ (s : State) (cs : List Command) (rest : List HostAction),
    s.script = cs.map HostAction.command ++ rest →
    ∃ t : State, core.run cs.length s = .next t ∧ t.script = rest ∧ t.build = s.build ∧
      t.samples = s.samples ++ cs.map fun c =>
        ⟨(eval s.build (opField c) (aField c) (bField c)).1, (eval s.build (opField c) (aField c) (bField c)).2⟩

/-- R113, R117: on a host that never samples unsettled outputs, a step takes no sample, or one whose values are
`eval` of the inputs then on the ports. -/
def Obligations.SettledSamplingSeesEval : Prop :=
  ∀ s t : State, s.Inv → s.samplesSettled → step s = .next t →
    t.samples = s.samples ∨
    ∃ x : Sample, t.samples = s.samples ++ [x] ∧ (x.y, x.ill) = eval t.build t.op t.a t.b

/-! ### The whole machine -/

/-- The state the model starts from meets the invariant; its port values and its count of draws are the model's choice
(log entries 3 and 5). -/
def Obligations.ResetMeetsTheInvariant : Prop := State.reset.Inv

/-- Every step keeps the invariant: settled outputs are `eval` of the inputs, unsettled ones the latest free draw (R116,
log entry 3), and the time left stays within `T_SETTLE` (R112); that undriven inputs do not settle is the model's choice
(log entry 9). -/
def Obligations.EveryStepKeepsTheInvariant : Prop :=
  ∀ s t : State, s.Inv → step s = .next t → t.Inv

/-- No step faults and none is refused: the block has no trap and cannot refuse a command (R92, R93, R117). -/
def Obligations.EveryStepGoesOn : Prop := ∀ s : State, ∃ t, step s = .next t

/-- The build parameters are fixed when the block is made; no step changes them (R16, R119). -/
def Obligations.NoStepChangesTheBuild : Prop := ∀ s t : State, step s = .next t → t.build = s.build

/-! ### The assembler and the host's programs -/

/-- R49: operands in range are encoded, a rotation amount of any size as `n mod 4`, ZEXT with `b = 0`, TRUNC's byte as
its two nibbles; `a` or `b` outside 0 to 15 and `x` outside 0 to 255 are refused. The reasons' names, and that `a` is
named before `b` where both are out of range, are the model's choice (log entry 11). -/
def Obligations.AssemblerEncodesOperandsInRange : Prop :=
  (∀ (env : Env) (a b : Nat), a < 16 → b < 16 →
    assemble env ⟨.add, [.lit a, .lit b]⟩ = .ok (.add (BitVec.ofNat 4 a) (BitVec.ofNat 4 b)) ∧
    assemble env ⟨.sub, [.lit a, .lit b]⟩ = .ok (.sub (BitVec.ofNat 4 a) (BitVec.ofNat 4 b)) ∧
    assemble env ⟨.xor, [.lit a, .lit b]⟩ = .ok (.xor (BitVec.ofNat 4 a) (BitVec.ofNat 4 b)) ∧
    assemble env ⟨.or, [.lit a, .lit b]⟩ = .ok (.or (BitVec.ofNat 4 a) (BitVec.ofNat 4 b)) ∧
    assemble env ⟨.and, [.lit a, .lit b]⟩ = .ok (.and (BitVec.ofNat 4 a) (BitVec.ofNat 4 b))) ∧
  (∀ (env : Env) (a n : Nat), a < 16 →
    assemble env ⟨.rol, [.lit a, .lit n]⟩ = .ok (.rol (BitVec.ofNat 4 a) (BitVec.ofNat 4 (n % 4))) ∧
    assemble env ⟨.ror, [.lit a, .lit n]⟩ = .ok (.ror (BitVec.ofNat 4 a) (BitVec.ofNat 4 (n % 4))) ∧
    assemble env ⟨.zext, [.lit a]⟩ = .ok (.zext (BitVec.ofNat 4 a) 0)) ∧
  (∀ (env : Env) (x : Nat), x < 256 →
    assemble env ⟨.trunc, [.lit x]⟩ = .ok (.trunc (BitVec.ofNat 4 (x / 16)) (BitVec.ofNat 4 (x % 16)))) ∧
  (∀ (env : Env), ∀ m ∈ [Mnem.add, .sub, .xor, .or, .and], ∀ a b : Nat,
    (16 ≤ a → assemble env ⟨m, [.lit a, .lit b]⟩ = .error (.nibbleOutOfRange a)) ∧
    (a < 16 → 16 ≤ b → assemble env ⟨m, [.lit a, .lit b]⟩ = .error (.nibbleOutOfRange b))) ∧
  (∀ (env : Env) (a n : Nat), 16 ≤ a →
    assemble env ⟨.rol, [.lit a, .lit n]⟩ = .error (.nibbleOutOfRange a) ∧
    assemble env ⟨.ror, [.lit a, .lit n]⟩ = .error (.nibbleOutOfRange a) ∧
    assemble env ⟨.zext, [.lit a]⟩ = .error (.nibbleOutOfRange a)) ∧
  (∀ (env : Env) (x : Nat), 256 ≤ x → assemble env ⟨.trunc, [.lit x]⟩ = .error (.byteOutOfRange x))

/-- The assembler accepts exactly the well-formed source commands whose names are all bound, and every command it
gives is one of the opcode map (R47, R49). -/
def Obligations.AssemblerAcceptsExactlyTheWellFormed : Prop :=
  (∀ (env : Env) (c : Source),
    (∃ i, assemble env c = .ok i) ↔
      c.wellFormed = true ∧ ∀ id, SrcOperand.name id ∈ c.operands → ∃ v, env.find id = some v) ∧
  (∀ (env : Env) (c : Source) (i : Instr), assemble env c = .ok i → i.wellFormed = true)

/-- R47: the host substitutes a kept value for its name before encoding: where a nibble is expected the low nibble
of the byte, for an amount its value mod 4 (R49); numbers and names mix. From log entry 11, not from a rule: that for TRUNC, and
for an amount before its mod 4, the whole byte is substituted (DEDUCED); that an unbound name is refused as
unboundName, whatever reason a later operand has (DESIGN CHOICE); that a name bound twice stands for its
latest value, and that names differ as soon as a character does, a letter's case included (DESIGN CHOICE). -/
def Obligations.KeptNamesAreSubstituted : Prop :=
  (∀ (env : Env) (p q : Name) (v w : Byte), env.find p = some v → env.find q = some w →
    assemble env ⟨.add, [.name p, .name q]⟩ = .ok (.add (BitVec.ofNat 4 (v.toNat % 16)) (BitVec.ofNat 4 (w.toNat % 16))) ∧
    assemble env ⟨.sub, [.name p, .name q]⟩ = .ok (.sub (BitVec.ofNat 4 (v.toNat % 16)) (BitVec.ofNat 4 (w.toNat % 16))) ∧
    assemble env ⟨.xor, [.name p, .name q]⟩ = .ok (.xor (BitVec.ofNat 4 (v.toNat % 16)) (BitVec.ofNat 4 (w.toNat % 16))) ∧
    assemble env ⟨.or, [.name p, .name q]⟩ = .ok (.or (BitVec.ofNat 4 (v.toNat % 16)) (BitVec.ofNat 4 (w.toNat % 16))) ∧
    assemble env ⟨.and, [.name p, .name q]⟩ = .ok (.and (BitVec.ofNat 4 (v.toNat % 16)) (BitVec.ofNat 4 (w.toNat % 16))) ∧
    assemble env ⟨.rol, [.name p, .name q]⟩ = .ok (.rol (BitVec.ofNat 4 (v.toNat % 16)) (BitVec.ofNat 4 (w.toNat % 4))) ∧
    assemble env ⟨.ror, [.name p, .name q]⟩ = .ok (.ror (BitVec.ofNat 4 (v.toNat % 16)) (BitVec.ofNat 4 (w.toNat % 4))) ∧
    assemble env ⟨.zext, [.name p]⟩ = .ok (.zext (BitVec.ofNat 4 (v.toNat % 16)) 0) ∧
    assemble env ⟨.trunc, [.name p]⟩ =
      .ok (.trunc (BitVec.ofNat 4 (v.toNat / 16)) (BitVec.ofNat 4 (v.toNat % 16)))) ∧
  (∀ (env : Env) (p : Name) (v : Byte), env.find p = some v →
    ∀ m ∈ [Mnem.add, .sub, .xor, .or, .and, .rol, .ror], ∀ n < 16,
      assemble env ⟨m, [.name p, .lit n]⟩ = assemble env ⟨m, [.lit (v.toNat % 16), .lit n]⟩ ∧
      assemble env ⟨m, [.lit n, .name p]⟩ = assemble env ⟨m, [.lit n, .lit (v.toNat % 16)]⟩) ∧
  (∀ (env : Env) (p : Name), env.find p = none →
    (∀ m ∈ [Mnem.add, .sub, .xor, .or, .and, .rol, .ror], ∀ o : SrcOperand,
      assemble env ⟨m, [.name p, o]⟩ = .error (.unboundName p)) ∧
    (∀ m ∈ [Mnem.add, .sub, .xor, .or, .and, .rol, .ror], ∀ n < 16,
      assemble env ⟨m, [.lit n, .name p]⟩ = .error (.unboundName p)) ∧
    assemble env ⟨.zext, [.name p]⟩ = .error (.unboundName p) ∧
    assemble env ⟨.trunc, [.name p]⟩ = .error (.unboundName p)) ∧
  (∀ (env : Env) (p q : Name) (v : Byte),
    Env.find p [] = none ∧ Env.find p ((p, v) :: env) = some v ∧
    (p ≠ q → Env.find p ((q, v) :: env) = env.find p))

/-- The character of a digit below 10. -/
def decChar (d : Nat) : Char := Char.ofNat (48 + d)

/-- The characters of a hexadecimal digit, in either case. -/
def hexChars (d : Nat) : List Char :=
  if d < 10 then [decChar d] else [Char.ofNat (55 + d), Char.ofNat (87 + d)]

/-- The value that a list of digits writes in a base. -/
def valueOf (base : Nat) (ds : List Nat) : Nat := ds.foldl (fun n d => n * base + d) 0

/-- R47, R19: an operand is a number in decimal, in `0x` hexadecimal or in `0b` binary, of any length, or `MIN` or
`MAX`; hexadecimal digits are read in either case, any other word that does not begin with a digit is a name, and every
operand position reads alike (log entry 11). -/
def Obligations.OperandTextReadsAsItsValue : Prop :=
  (∀ ds : List Nat, ds ≠ [] → (∀ d ∈ ds, d < 10) →
    operandOf (ds.map decChar) = .ok (.lit (valueOf 10 ds))) ∧
  (∀ (ds : List Nat) (cs : List Char), ds ≠ [] → (∀ d ∈ ds, d < 16) → List.Forall₂ (fun d c => c ∈ hexChars d) ds cs →
    operandOf ('0' :: 'x' :: cs) = .ok (.lit (valueOf 16 ds))) ∧
  (∀ ds : List Nat, ds ≠ [] → (∀ d ∈ ds, d < 2) →
    operandOf ('0' :: 'b' :: ds.map decChar) = .ok (.lit (valueOf 2 ds))) ∧
  operandOf ['M', 'I', 'N'] = .ok (.lit 0) ∧ operandOf ['M', 'A', 'X'] = .ok (.lit 15) ∧
  (∀ cs : List Char, operandOf cs = .ok (.name cs) ↔ isName cs = true) ∧
  (∀ cs : List Char, isName cs = true ↔
    cs ≠ [] ∧ (∀ d < 10, cs.head? ≠ some (decChar d)) ∧ cs ≠ ['M', 'I', 'N'] ∧ cs ≠ ['M', 'A', 'X'])

/-- The mnemonics of R47 and R48 as R47 writes them. -/
def spelledMnemonics : List (List Char × Mnem) :=
  [(['A', 'D', 'D'], .add), (['S', 'U', 'B'], .sub), (['X', 'O', 'R'], .xor), (['O', 'R'], .or), (['A', 'N', 'D'], .and)] ++
  [(['R', 'O', 'L'], .rol), (['R', 'O', 'R'], .ror), (['Z', 'E', 'X', 'T'], .zext), (['T', 'R', 'U', 'N', 'C'], .trunc)] ++
  [(['W', 'A', 'D', 'D'], .wadd), (['W', 'S', 'U', 'B'], .wsub), (['N', 'O', 'T'], .not), (['N', 'E', 'G'], .neg)] ++
  [(['I', 'N', 'C'], .inc), (['D', 'E', 'C'], .dec), (['F', 'R', 'O', 'M', 'B', 'Y', 'T', 'E'], .frombyte),
   (['T', 'O', 'B', 'Y', 'T', 'E'], .tobyte)]

/-- R47: a word is a mnemonic exactly when it is one of R47's and R48's, each letter in either case. -/
def Obligations.MnemonicsAreReadInEitherCase : Prop :=
  (∀ p ∈ spelledMnemonics, ∀ cs : List Char,
    List.Forall₂ (fun c l => c = l ∨ c = Char.ofNat (l.toNat + 32)) cs p.1 → mnemOf cs = .ok p.2) ∧
  (∀ (cs : List Char) (m : Mnem), mnemOf cs = .ok m →
    ∃ p ∈ spelledMnemonics, p.2 = m ∧ List.Forall₂ (fun c l => c = l ∨ c = Char.ofNat (l.toNat + 32)) cs p.1)

/-- A word of a line: not empty, and free of spaces, tabs, commas, `=` and `;`. -/
def isWord (cs : List Char) : Prop := cs ≠ [] ∧ ∀ c ∈ cs, c ∉ [' ', '\t', ',', '=', ';']

/-- R47: a line `OP x, y` or `OP x`, plain or after `name = `, reads as its mnemonic, operands and name; `;` starts a
comment that runs to the end of the line. That a line without a command is read as none, and that a word before `=`
that is no name is refused, are the model's choices (log entry 11). -/
def Obligations.LinesReadAsTheirParts : Prop :=
  (∀ (m x y : List Char) (mn : Mnem) (o p : SrcOperand), isWord m → isWord x → isWord y →
    mnemOf m = .ok mn → operandOf x = .ok o → operandOf y = .ok p →
    lineOf (m ++ ' ' :: (x ++ ',' :: ' ' :: y)) = .ok (some ⟨none, ⟨mn, [o, p]⟩⟩) ∧
    lineOf (m ++ ' ' :: x) = .ok (some ⟨none, ⟨mn, [o]⟩⟩) ∧
    ∀ n : List Char, isWord n →
      (isName n = true →
        lineOf (n ++ ' ' :: '=' :: ' ' :: (m ++ ' ' :: (x ++ ',' :: ' ' :: y))) = .ok (some ⟨some n, ⟨mn, [o, p]⟩⟩) ∧
        lineOf (n ++ ' ' :: '=' :: ' ' :: (m ++ ' ' :: x)) = .ok (some ⟨some n, ⟨mn, [o]⟩⟩)) ∧
      (isName n = false →
        lineOf (n ++ ' ' :: '=' :: ' ' :: (m ++ ' ' :: (x ++ ',' :: ' ' :: y))) = .error (.badName n) ∧
        lineOf (n ++ ' ' :: '=' :: ' ' :: (m ++ ' ' :: x)) = .error (.badName n))) ∧
  (∀ cs comment : List Char, lineOf (cs ++ ';' :: comment) = lineOf cs) ∧
  (∀ comment : List Char, lineOf (';' :: comment) = .ok none) ∧ lineOf [] = .ok none

/-- R48: each pseudo-instruction assembles to its expansion, whatever its operands are. -/
def Obligations.PseudoInstructionsExpand : Prop :=
  ∀ (env : Env) (a b : SrcOperand),
    assemble env ⟨.wadd, [a, b]⟩ = assemble env ⟨.add, [a, b]⟩ ∧
    assemble env ⟨.wsub, [a, b]⟩ = assemble env ⟨.sub, [a, b]⟩ ∧
    assemble env ⟨.not, [a]⟩ = assemble env ⟨.xor, [a, .lit 15]⟩ ∧
    assemble env ⟨.neg, [a]⟩ = assemble env ⟨.sub, [.lit 0, a]⟩ ∧
    assemble env ⟨.inc, [a]⟩ = assemble env ⟨.add, [a, .lit 1]⟩ ∧
    assemble env ⟨.dec, [a]⟩ = assemble env ⟨.sub, [a, .lit 1]⟩ ∧
    assemble env ⟨.frombyte, [a]⟩ = assemble env ⟨.trunc, [a]⟩ ∧
    assemble env ⟨.tobyte, [a]⟩ = assemble env ⟨.zext, [a]⟩

/-- R52: `from_native_byte(n)` is `TRUNC n`, `to_native_byte(value)` is `ZEXT value`, and `from_bytes` is TRUNC of the
first byte; an empty buffer is reported and issues nothing. -/
def Obligations.SoftwareConversionsIssueTheCommands : Prop :=
  ∀ (s : State) (n : Byte) (v : U4) (more : List Byte),
    exec (fromNativeByte n) s = .next { s with y := BitVec.ofNat 8 (n.toNat % 16), ill := false } ∧
    exec (toNativeByte v) s = .next { s with y := BitVec.ofNat 8 v.toNat, ill := false } ∧
    fromNativeByte n = .trunc (BitVec.ofNat 4 (n.toNat / 16)) (BitVec.ofNat 4 (n.toNat % 16)) ∧
    toNativeByte v = .zext v 0 ∧
    fromBytes (n :: more) = .ok (fromNativeByte n) ∧
    fromBytes [] = .error .emptyInput

/-- R47, R117: a line of a host program that the assembler accepts runs to its end; the block shows `eval` of the
command, and the host keeps `y` under the line's name exactly when the command was legal (log entry 12). -/
def Obligations.HostLinesRunAndKeepResults : Prop :=
  ∀ (l : HostLine) (env : Env) (s : State) (i : Instr), assemble env l.source = .ok i →
    ∃ (t : State) (y : Byte) (ill : Bool), (y, ill) = eval s.build i.op i.a i.b ∧
      t.y = y ∧ t.ill = ill ∧ t.script = s.script ∧ t.samples = s.samples ++ [⟨y, ill⟩] ∧
      runLine l env s = .ok
        (match l.dest, ill with
          | some n, false => (n, y) :: env
          | _, _ => env, t)
end

