-- ==== Sys2Proof/Laws/Arith.lean ====
section
/-! SUPPORT. Laws/Arith.lean: the bits of a nibble built from bits, the cells as equations, and the bits of each
datapath result. -/

namespace Sys2Proof.Machine

theorem bit_ofBits (f : Nat → Bool) {j : Nat} (h : j < 4) : bit (ofBits f) j = f j := by
  rcases (by omega : j = 0 ∨ j = 1 ∨ j = 2 ∨ j = 3) with rfl | rfl | rfl | rfl <;>
    simp only [bit, ofBits] <;> cases f 0 <;> cases f 1 <;> cases f 2 <;> cases f 3 <;> rfl

theorem bit_of_ge (v : U4) {j : Nat} (h : 4 ≤ j) : bit v j = false := BitVec.getLsbD_of_ge v j h

theorem ext_bits {v w : U4} (h : ∀ j < 4, bit v j = bit w j) : v = w :=
  BitVec.eq_of_getLsbD_eq fun j hj => h j hj

theorem fullAdder_eq (p q cin : Bool) :
    fullAdder p q cin = ((p ^^ q) ^^ cin, (p && q) || (cin && (p ^^ q))) := by
  cases p <;> cases q <;> cases cin <;> rfl

theorem fullSub_diff (t : SubTable) (p q win : Bool) : (fullSub t p q win).1 = ((p ^^ q) ^^ win) := by
  cases t <;> cases p <;> cases q <;> cases win <;> rfl

theorem fullSub_borrow_arith (p q win : Bool) :
    (fullSub .arith p q win).2 = ((!p && q) || (win && !(p ^^ q))) := by
  cases p <;> cases q <;> cases win <;> rfl

theorem fullSub_borrow_literal (p q win : Bool) : (fullSub .literal p q win).2 = (!p && (q || win)) := by
  cases p <;> cases q <;> cases win <;> rfl

theorem carry_succ (a b : U4) (j : Nat) :
    carry a b (j + 1) = ((bit a j && bit b j) || (carry a b j && (bit a j ^^ bit b j))) := by
  simp [carry, fullAdder_eq]

theorem bit_add4 (a b : U4) {j : Nat} (h : j < 4) :
    bit (add4 a b) j = ((bit a j ^^ bit b j) ^^ carry a b j) := by
  simp [add4, bit_ofBits _ h, fullAdder_eq]

theorem bit_sub4 (t : SubTable) (a b : U4) {j : Nat} (h : j < 4) :
    bit (sub4 t a b) j = ((bit a j ^^ bit b j) ^^ borrow t a b j) := by
  simp [sub4, bit_ofBits _ h, fullSub_diff]

theorem bit_gate4 (f : Bool → Bool → Bool) (a b : U4) {j : Nat} (h : j < 4) :
    bit (gate4 f a b) j = f (bit a j) (bit b j) := bit_ofBits _ h

theorem bit_rol4 (a : U4) (k : Nat) {j : Nat} (h : j < 4) :
    bit (rol4 a k) j = bit a (((j : Int) - (k : Int)) % 4).toNat := bit_ofBits _ h

theorem bit_ror4 (a : U4) (k : Nat) {j : Nat} (h : j < 4) :
    bit (ror4 a k) j = bit a ((j + k) % 4) := bit_ofBits _ h

end Sys2Proof.Machine
end

