-- ==== Sys2Proof/Laws/Assembler.lean ====
section
/-! SUPPORT. Laws/Assembler.lean: what each part of the assembler and of its reader can do. -/

namespace Sys2Proof.Machine

/-! ### Kept values -/

@[simp] theorem Env.find_nil (id : Name) : Env.find id [] = none := rfl

@[simp] theorem Env.find_cons_self (id : Name) (v : Byte) (env : Env) : Env.find id ((id, v) :: env) = some v := by
  simp [Env.find]

theorem Env.find_cons_of_ne {id k : Name} (h : k ≠ id) (v : Byte) (env : Env) :
    Env.find id ((k, v) :: env) = env.find id := by
  simp [Env.find, h]

/-- A kept value of a bound name is the operand's value. -/
theorem operandValue_name {env : Env} {id : Name} {v : Byte} (h : env.find id = some v) (k : OperandKind) :
    operandValue env k (.name id) = .ok (keptValue k v) := by
  simp [operandValue, h]

/-- An unbound name is refused in every position. -/
theorem operandValue_unbound {env : Env} {id : Name} (h : env.find id = none) (k : OperandKind) :
    operandValue env k (.name id) = .error (.unboundName id) := by
  simp [operandValue, h]

/-- A number has a value exactly where it fits. -/
theorem literalValue_ok_iff (k : OperandKind) (n : Nat) : (∃ m, literalValue k n = .ok m) ↔ k.fits n = true := by
  cases k <;> simp only [literalValue, OperandKind.fits] <;> try split
  all_goals simp_all

/-- An operand has a value exactly when it fits its position and, being a name, is bound. -/
theorem operandValue_ok_iff (env : Env) (k : OperandKind) (o : SrcOperand) :
    (∃ n, operandValue env k o = .ok n) ↔ o.fits k = true ∧ ∀ id, o = .name id → ∃ v, env.find id = some v := by
  cases o with
  | lit n => simp [operandValue, SrcOperand.fits, literalValue_ok_iff]
  | name id => cases h : env.find id <;> simp [operandValue, SrcOperand.fits, h]

/-- The operands that have values are as many as the positions, and so are their values. -/
theorem operandValues_length {env : Env} {ks : List OperandKind} {os : List SrcOperand} {l : List Nat}
    (h : operandValues env ks os = .ok l) : os.length = ks.length ∧ l.length = ks.length := by
  induction ks generalizing os l with
  | nil =>
    cases os with
    | nil => cases h; exact ⟨rfl, rfl⟩
    | cons o os => cases h
  | cons k ks ih =>
    cases os with
    | nil => cases h
    | cons o os =>
      rcases h1 : operandValue env k o with r | n
      · simp [operandValues, h1] at h
      · rcases h2 : operandValues env ks os with r | ns
        · simp [operandValues, h1, h2] at h
        · simp only [operandValues, h1, h2, Except.ok.injEq] at h
          subst h
          simp [ih h2]

/-! ### Words and tokens -/

@[simp] theorem beforeComment_nil : beforeComment [] = [] := rfl
@[simp] theorem beforeComment_semicolon (cs : List Char) : beforeComment (';' :: cs) = [] := rfl

/-- Text without a comment sign stays. -/
theorem beforeComment_append {cs : List Char} (h : ∀ c ∈ cs, c ≠ ';') (rest : List Char) :
    beforeComment (cs ++ rest) = cs ++ beforeComment rest := by
  induction cs with
  | nil => rfl
  | cons c cs ih =>
    simp only [List.mem_cons, forall_eq_or_imp] at h
    simp [beforeComment, h.1, ih h.2]

/-- What stands after a comment sign is not read. -/
theorem beforeComment_comment (cs comment : List Char) : beforeComment (cs ++ ';' :: comment) = beforeComment cs := by
  induction cs with
  | nil => rfl
  | cons c cs ih => simp [beforeComment, ih]

/-- The characters of a word are gathered until a separator. -/
theorem tokens_word {cs : List Char} (h : ∀ c ∈ cs, c ≠ ' ' ∧ c ≠ '\t' ∧ c ≠ ',' ∧ c ≠ '=') (w rest : List Char) :
    tokens w (cs ++ rest) = tokens (cs.reverse ++ w) rest := by
  induction cs generalizing w with
  | nil => rfl
  | cons c cs ih =>
    simp only [List.mem_cons, forall_eq_or_imp] at h
    obtain ⟨⟨h1, h2, h3, h4⟩, h⟩ := h
    simp [tokens, h1, h2, h3, h4, ih h]

/-- A gathered word is closed by a separator or by the end of the line. -/
theorem closeWord_reverse {cs : List Char} (h : cs ≠ []) (ts : List Token) :
    closeWord cs.reverse ts = .word cs :: ts := by
  simp [closeWord, h]

/-! ### Names -/

/-- An operand is read as a name exactly when the word is one, and as the word itself. -/
theorem operandOf_of_isName {cs : List Char} (h : isName cs = true) : operandOf cs = .ok (.name cs) := by
  cases cs with
  | nil => cases h
  | cons c cs =>
    simp only [isName, Bool.and_eq_true, bne_iff_ne, ne_eq, Bool.not_eq_true'] at h
    obtain ⟨⟨hd, hmin⟩, hmax⟩ := h
    simp only [operandOf, hmin, hmax, hd, if_false, Bool.false_eq_true]

end Sys2Proof.Machine
end

