-- ==== Sys2Proof/Laws/Decode.lean ====
section
/-! SUPPORT. Laws/Decode.lean: the fields of a packed word, and the word its fields make. -/

namespace Sys2Proof

@[simp] theorem opField_pack (op a b : U4) : opField (pack op a b) = op := by
  ext i hi
  simp only [opField, pack, BitVec.getElem_extractLsb', BitVec.getLsbD_append]
  have h1 : ¬ 8 + i < 4 := by omega
  have h2 : ¬ 8 + i - 4 < 4 := by omega
  simp only [h1, h2, if_false]
  rw [show 8 + i - 4 - 4 = i by omega, BitVec.getLsbD_eq_getElem hi]

@[simp] theorem aField_pack (op a b : U4) : aField (pack op a b) = a := by
  ext i hi
  simp only [aField, pack, BitVec.getElem_extractLsb', BitVec.getLsbD_append]
  have h1 : ¬ 4 + i < 4 := by omega
  have h2 : 4 + i - 4 < 4 := by omega
  simp only [h1, h2, if_false, if_true]
  rw [show 4 + i - 4 = i by omega, BitVec.getLsbD_eq_getElem hi]

@[simp] theorem bField_pack (op a b : U4) : bField (pack op a b) = b := by
  ext i hi
  simp only [bField, pack, BitVec.getElem_extractLsb', BitVec.getLsbD_append]
  have h1 : 0 + i < 4 := by omega
  simp only [h1, if_true]
  rw [show 0 + i = i by omega, BitVec.getLsbD_eq_getElem hi]

theorem pack_fields (c : Command) : pack (opField c) (aField c) (bField c) = c := by
  refine BitVec.eq_of_getLsbD_eq fun i hi => ?_
  simp only [pack, opField, aField, bField, BitVec.getLsbD_append, BitVec.getLsbD_extractLsb']
  by_cases h0 : i < 4
  · simp [h0]
  · by_cases h1 : i - 4 < 4
    · simp [h0, h1, show 4 + (i - 4) = i by omega]
    · simp [h0, h1, show i - 4 - 4 < 4 by omega, show 8 + (i - 4 - 4) = i by omega]

theorem decode_pack (op a b : U4) : decode (pack op a b) = decodeFields op a b := by
  simp [decode]

end Sys2Proof
end

