-- ==== Sys2Proof/Laws/State.lean ====
section
/-! SUPPORT. Laws/State.lean: what each update of the state leaves in each field. -/

namespace Sys2Proof.Machine

/-! ### drive -/

@[simp] theorem State.drive_build (s : State) (v : Byte) (i : Bool) : (s.drive v i).build = s.build := rfl
@[simp] theorem State.drive_op (s : State) (v : Byte) (i : Bool) : (s.drive v i).op = s.op := rfl
@[simp] theorem State.drive_a (s : State) (v : Byte) (i : Bool) : (s.drive v i).a = s.a := rfl
@[simp] theorem State.drive_b (s : State) (v : Byte) (i : Bool) : (s.drive v i).b = s.b := rfl
@[simp] theorem State.drive_driven (s : State) (v : Byte) (i : Bool) : (s.drive v i).driven = s.driven := rfl
@[simp] theorem State.drive_settleLeft (s : State) (v : Byte) (i : Bool) : (s.drive v i).settleLeft = s.settleLeft := rfl
@[simp] theorem State.drive_y (s : State) (v : Byte) (i : Bool) : (s.drive v i).y = v := rfl
@[simp] theorem State.drive_ill (s : State) (v : Byte) (i : Bool) : (s.drive v i).ill = i := rfl
@[simp] theorem State.drive_draws (s : State) (v : Byte) (i : Bool) : (s.drive v i).draws = s.draws := rfl
@[simp] theorem State.drive_script (s : State) (v : Byte) (i : Bool) : (s.drive v i).script = s.script := rfl
@[simp] theorem State.drive_samples (s : State) (v : Byte) (i : Bool) : (s.drive v i).samples = s.samples := rfl

/-! ### driveNibble -/

@[simp] theorem State.driveNibble_build (s : State) (r : U4) : (s.driveNibble r).build = s.build := rfl
@[simp] theorem State.driveNibble_op (s : State) (r : U4) : (s.driveNibble r).op = s.op := rfl
@[simp] theorem State.driveNibble_a (s : State) (r : U4) : (s.driveNibble r).a = s.a := rfl
@[simp] theorem State.driveNibble_b (s : State) (r : U4) : (s.driveNibble r).b = s.b := rfl
@[simp] theorem State.driveNibble_driven (s : State) (r : U4) : (s.driveNibble r).driven = s.driven := rfl
@[simp] theorem State.driveNibble_settleLeft (s : State) (r : U4) : (s.driveNibble r).settleLeft = s.settleLeft := rfl
@[simp] theorem State.driveNibble_y (s : State) (r : U4) : (s.driveNibble r).y = zext8 r := rfl
@[simp] theorem State.driveNibble_ill (s : State) (r : U4) : (s.driveNibble r).ill = false := rfl
@[simp] theorem State.driveNibble_draws (s : State) (r : U4) : (s.driveNibble r).draws = s.draws := rfl
@[simp] theorem State.driveNibble_script (s : State) (r : U4) : (s.driveNibble r).script = s.script := rfl
@[simp] theorem State.driveNibble_samples (s : State) (r : U4) : (s.driveNibble r).samples = s.samples := rfl

/-! ### driveIllegal -/

@[simp] theorem State.driveIllegal_build (s : State) : s.driveIllegal.build = s.build := rfl
@[simp] theorem State.driveIllegal_op (s : State) : s.driveIllegal.op = s.op := rfl
@[simp] theorem State.driveIllegal_a (s : State) : s.driveIllegal.a = s.a := rfl
@[simp] theorem State.driveIllegal_b (s : State) : s.driveIllegal.b = s.b := rfl
@[simp] theorem State.driveIllegal_driven (s : State) : s.driveIllegal.driven = s.driven := rfl
@[simp] theorem State.driveIllegal_settleLeft (s : State) : s.driveIllegal.settleLeft = s.settleLeft := rfl
@[simp] theorem State.driveIllegal_y (s : State) : s.driveIllegal.y = 0x00#8 := rfl
@[simp] theorem State.driveIllegal_ill (s : State) : s.driveIllegal.ill = true := rfl
@[simp] theorem State.driveIllegal_draws (s : State) : s.driveIllegal.draws = s.draws := rfl
@[simp] theorem State.driveIllegal_script (s : State) : s.driveIllegal.script = s.script := rfl
@[simp] theorem State.driveIllegal_samples (s : State) : s.driveIllegal.samples = s.samples := rfl

/-! ### redraw -/

@[simp] theorem State.redraw_build (s : State) : s.redraw.build = s.build := rfl
@[simp] theorem State.redraw_op (s : State) : s.redraw.op = s.op := rfl
@[simp] theorem State.redraw_a (s : State) : s.redraw.a = s.a := rfl
@[simp] theorem State.redraw_b (s : State) : s.redraw.b = s.b := rfl
@[simp] theorem State.redraw_driven (s : State) : s.redraw.driven = s.driven := rfl
@[simp] theorem State.redraw_settleLeft (s : State) : s.redraw.settleLeft = s.settleLeft := rfl
@[simp] theorem State.redraw_y (s : State) : s.redraw.y = Config.freeY s.draws := rfl
@[simp] theorem State.redraw_ill (s : State) : s.redraw.ill = Config.freeIll s.draws := rfl
@[simp] theorem State.redraw_draws (s : State) : s.redraw.draws = s.draws + 1 := rfl
@[simp] theorem State.redraw_script (s : State) : s.redraw.script = s.script := rfl
@[simp] theorem State.redraw_samples (s : State) : s.redraw.samples = s.samples := rfl

/-! ### settleNow -/

@[simp] theorem State.settleNow_build (s : State) : s.settleNow.build = s.build := rfl
@[simp] theorem State.settleNow_op (s : State) : s.settleNow.op = s.op := rfl
@[simp] theorem State.settleNow_a (s : State) : s.settleNow.a = s.a := rfl
@[simp] theorem State.settleNow_b (s : State) : s.settleNow.b = s.b := rfl
@[simp] theorem State.settleNow_driven (s : State) : s.settleNow.driven = s.driven := rfl
@[simp] theorem State.settleNow_settleLeft (s : State) : s.settleNow.settleLeft = 0 := rfl
@[simp] theorem State.settleNow_y (s : State) : s.settleNow.y = s.y := rfl
@[simp] theorem State.settleNow_ill (s : State) : s.settleNow.ill = s.ill := rfl
@[simp] theorem State.settleNow_draws (s : State) : s.settleNow.draws = s.draws := rfl
@[simp] theorem State.settleNow_script (s : State) : s.settleNow.script = s.script := rfl
@[simp] theorem State.settleNow_samples (s : State) : s.settleNow.samples = s.samples := rfl

/-! ### record -/

@[simp] theorem State.record_build (s : State) : s.record.build = s.build := rfl
@[simp] theorem State.record_op (s : State) : s.record.op = s.op := rfl
@[simp] theorem State.record_a (s : State) : s.record.a = s.a := rfl
@[simp] theorem State.record_b (s : State) : s.record.b = s.b := rfl
@[simp] theorem State.record_driven (s : State) : s.record.driven = s.driven := rfl
@[simp] theorem State.record_settleLeft (s : State) : s.record.settleLeft = s.settleLeft := rfl
@[simp] theorem State.record_y (s : State) : s.record.y = s.y := rfl
@[simp] theorem State.record_ill (s : State) : s.record.ill = s.ill := rfl
@[simp] theorem State.record_draws (s : State) : s.record.draws = s.draws := rfl
@[simp] theorem State.record_script (s : State) : s.record.script = s.script := rfl
@[simp] theorem State.record_samples (s : State) : s.record.samples = s.samples ++ [⟨s.y, s.ill⟩] := rfl

/-! ### release -/

@[simp] theorem State.release_build (s : State) : s.release.build = s.build := rfl
@[simp] theorem State.release_op (s : State) : s.release.op = s.op := rfl
@[simp] theorem State.release_a (s : State) : s.release.a = s.a := rfl
@[simp] theorem State.release_b (s : State) : s.release.b = s.b := rfl
@[simp] theorem State.release_driven (s : State) : s.release.driven = false := rfl
@[simp] theorem State.release_settleLeft (s : State) : s.release.settleLeft = s.build.tSettle := rfl
@[simp] theorem State.release_y (s : State) : s.release.y = Config.freeY s.draws := rfl
@[simp] theorem State.release_ill (s : State) : s.release.ill = Config.freeIll s.draws := rfl
@[simp] theorem State.release_draws (s : State) : s.release.draws = s.draws + 1 := rfl
@[simp] theorem State.release_script (s : State) : s.release.script = s.script := rfl
@[simp] theorem State.release_samples (s : State) : s.release.samples = s.samples := rfl

/-! ### powerCycle -/

@[simp] theorem State.powerCycle_build (s : State) : s.powerCycle.build = s.build := rfl
@[simp] theorem State.powerCycle_op (s : State) : s.powerCycle.op = s.op := rfl
@[simp] theorem State.powerCycle_a (s : State) : s.powerCycle.a = s.a := rfl
@[simp] theorem State.powerCycle_b (s : State) : s.powerCycle.b = s.b := rfl
@[simp] theorem State.powerCycle_driven (s : State) : s.powerCycle.driven = s.driven := rfl
@[simp] theorem State.powerCycle_settleLeft (s : State) : s.powerCycle.settleLeft = s.build.tSettle := rfl
@[simp] theorem State.powerCycle_y (s : State) : s.powerCycle.y = Config.freeY s.draws := rfl
@[simp] theorem State.powerCycle_ill (s : State) : s.powerCycle.ill = Config.freeIll s.draws := rfl
@[simp] theorem State.powerCycle_draws (s : State) : s.powerCycle.draws = s.draws + 1 := rfl
@[simp] theorem State.powerCycle_script (s : State) : s.powerCycle.script = s.script := rfl
@[simp] theorem State.powerCycle_samples (s : State) : s.powerCycle.samples = s.samples := rfl

/-! ### withScript -/

@[simp] theorem State.withScript_build (s : State) (l : List HostAction) : (s.withScript l).build = s.build := rfl
@[simp] theorem State.withScript_op (s : State) (l : List HostAction) : (s.withScript l).op = s.op := rfl
@[simp] theorem State.withScript_a (s : State) (l : List HostAction) : (s.withScript l).a = s.a := rfl
@[simp] theorem State.withScript_b (s : State) (l : List HostAction) : (s.withScript l).b = s.b := rfl
@[simp] theorem State.withScript_driven (s : State) (l : List HostAction) : (s.withScript l).driven = s.driven := rfl
@[simp] theorem State.withScript_settleLeft (s : State) (l : List HostAction) : (s.withScript l).settleLeft = s.settleLeft := rfl
@[simp] theorem State.withScript_y (s : State) (l : List HostAction) : (s.withScript l).y = s.y := rfl
@[simp] theorem State.withScript_ill (s : State) (l : List HostAction) : (s.withScript l).ill = s.ill := rfl
@[simp] theorem State.withScript_draws (s : State) (l : List HostAction) : (s.withScript l).draws = s.draws := rfl
@[simp] theorem State.withScript_script (s : State) (l : List HostAction) : (s.withScript l).script = l := rfl
@[simp] theorem State.withScript_samples (s : State) (l : List HostAction) : (s.withScript l).samples = s.samples := rfl

end Sys2Proof.Machine
end

