-- ==== Sys2Proof/Laws/Ops.lean ====
section
/-! SUPPORT. Laws/Ops.lean: for each shared operation, once, everything it can do. -/

namespace Sys2Proof.Machine

/-! ### settled and drives -/

theorem State.settled_iff (s : State) : s.settled = true ↔ s.driven = true ∧ s.settleLeft = 0 := by
  simp [State.settled]

theorem State.drives_iff (s : State) (c : Command) : s.drives c = true ↔ s.driven = true ∧ s.onPorts = c := by
  simp [State.drives, State.onPorts]

@[simp] theorem State.settled_drive (s : State) (v : Byte) (i : Bool) : (s.drive v i).settled = s.settled := rfl
@[simp] theorem State.settled_driveNibble (s : State) (r : U4) : (s.driveNibble r).settled = s.settled := rfl
@[simp] theorem State.settled_driveIllegal (s : State) : s.driveIllegal.settled = s.settled := rfl
@[simp] theorem State.settled_redraw (s : State) : s.redraw.settled = s.settled := rfl
@[simp] theorem State.settled_record (s : State) : s.record.settled = s.settled := rfl
@[simp] theorem State.settled_withScript (s : State) (l : List HostAction) :
    (s.withScript l).settled = s.settled := rfl
@[simp] theorem State.settled_settleNow (s : State) : s.settleNow.settled = s.driven := by simp [State.settled]
@[simp] theorem State.settled_release (s : State) : s.release.settled = false := rfl

/-! ### drawn outputs -/

@[simp] theorem State.drawn_redraw (s : State) : s.redraw.Drawn := ⟨Nat.succ_pos _, rfl, rfl⟩
@[simp] theorem State.drawn_release (s : State) : s.release.Drawn := ⟨Nat.succ_pos _, rfl, rfl⟩
@[simp] theorem State.drawn_powerCycle (s : State) : s.powerCycle.Drawn := ⟨Nat.succ_pos _, rfl, rfl⟩
@[simp] theorem State.drawn_withScript (s : State) (l : List HostAction) : (s.withScript l).Drawn ↔ s.Drawn := Iff.rfl

/-! ### the outcomes -/

@[simp] theorem onNext_next (s : State) (f : State → State) : onNext (.next s) f = .next (f s) := rfl

theorem onNext_eq_next {o : Host.Outcome State Fault Refusal} {f : State → State} {t : State} :
    onNext o f = .next t ↔ ∃ s, o = .next s ∧ f s = t := by
  cases o <;> simp [onNext]

/-! ### issuing -/

theorem State.present_of_drives {s : State} {c : Command} (h : s.drives c = true) : s.present c = s := by
  simp [State.present, h]

theorem State.present_of_new {s : State} {c : Command} (h : s.drives c = false) :
    s.present c = ({ s with op := opField c, a := aField c, b := bField c, driven := true,
                            settleLeft := s.build.tSettle }).redraw := by
  simp [State.present, h]

/-- Issuing a command either changes nothing, because the host drives it already, or starts it anew. -/
theorem State.present_cases (s : State) (c : Command) :
    (s.driven = true ∧ s.onPorts = c ∧ s.present c = s) ∨
    (s.drives c = false ∧
      s.present c = ({ s with op := opField c, a := aField c, b := bField c, driven := true,
                              settleLeft := s.build.tSettle }).redraw) := by
  cases h : s.drives c with
  | true => exact .inl ⟨((s.drives_iff c).1 h).1, ((s.drives_iff c).1 h).2, s.present_of_drives h⟩
  | false => exact .inr ⟨rfl, s.present_of_new h⟩

@[simp] theorem State.present_build (s : State) (c : Command) : (s.present c).build = s.build := by
  rcases s.present_cases c with ⟨_, _, h⟩ | ⟨_, h⟩ <;> rw [h]; rfl

@[simp] theorem State.present_driven (s : State) (c : Command) : (s.present c).driven = true := by
  rcases s.present_cases c with ⟨hd, _, h⟩ | ⟨_, h⟩ <;> rw [h]
  · exact hd
  · rfl

@[simp] theorem State.present_script (s : State) (c : Command) : (s.present c).script = s.script := by
  rcases s.present_cases c with ⟨_, _, h⟩ | ⟨_, h⟩ <;> rw [h]; rfl

@[simp] theorem State.present_samples (s : State) (c : Command) : (s.present c).samples = s.samples := by
  rcases s.present_cases c with ⟨_, _, h⟩ | ⟨_, h⟩ <;> rw [h]; rfl

/-! ### sampling -/

theorem State.takeSample_of_settled {s : State} (h : s.settled = true) : s.takeSample = s.record := by
  simp [State.takeSample, h]

theorem State.takeSample_of_unsettled {s : State} (h : s.settled = false) : s.takeSample = s.record.redraw := by
  simp [State.takeSample, h]

@[simp] theorem State.takeSample_build (s : State) : s.takeSample.build = s.build := by
  unfold State.takeSample; split <;> rfl
@[simp] theorem State.takeSample_op (s : State) : s.takeSample.op = s.op := by
  unfold State.takeSample; split <;> rfl
@[simp] theorem State.takeSample_a (s : State) : s.takeSample.a = s.a := by
  unfold State.takeSample; split <;> rfl
@[simp] theorem State.takeSample_b (s : State) : s.takeSample.b = s.b := by
  unfold State.takeSample; split <;> rfl
@[simp] theorem State.takeSample_driven (s : State) : s.takeSample.driven = s.driven := by
  unfold State.takeSample; split <;> rfl
@[simp] theorem State.takeSample_settleLeft (s : State) : s.takeSample.settleLeft = s.settleLeft := by
  unfold State.takeSample; split <;> rfl
@[simp] theorem State.takeSample_script (s : State) : s.takeSample.script = s.script := by
  unfold State.takeSample; split <;> rfl
@[simp] theorem State.takeSample_samples (s : State) : s.takeSample.samples = s.samples ++ [⟨s.y, s.ill⟩] := by
  unfold State.takeSample; split <;> rfl

end Sys2Proof.Machine
end

