-- ==== Sys2Proof/Laws/PerInstr.lean ====
section
/-! SUPPORT. Laws/PerInstr.lean: the family EncodeFields, one lemma per command: the encoded word carries the
command's `op`, `a` and `b` in the fields of rule R40 (30_encoding.md). -/

namespace Sys2Proof.Laws.EncodeFields

/-- The three fields of the encoded word are the command's own. -/
def Statement (i : Instr) : Prop :=
  opField (encode i) = i.op ∧ aField (encode i) = i.a ∧ bField (encode i) = i.b

theorem add (a b : U4) : Statement (.add a b) := by simp [Statement, encode]
theorem sub (a b : U4) : Statement (.sub a b) := by simp [Statement, encode]
theorem xor (a b : U4) : Statement (.xor a b) := by simp [Statement, encode]
theorem or (a b : U4) : Statement (.or a b) := by simp [Statement, encode]
theorem and (a b : U4) : Statement (.and a b) := by simp [Statement, encode]
theorem rol (a b : U4) : Statement (.rol a b) := by simp [Statement, encode]
theorem ror (a b : U4) : Statement (.ror a b) := by simp [Statement, encode]
theorem zext (a b : U4) : Statement (.zext a b) := by simp [Statement, encode]
theorem trunc (a b : U4) : Statement (.trunc a b) := by simp [Statement, encode]
theorem reserved9 (a b : U4) : Statement (.reserved9 a b) := by simp [Statement, encode]
theorem reservedAB (op a b : U4) : Statement (.reservedAB op a b) := by simp [Statement, encode]
theorem reservedCF (op a b : U4) : Statement (.reservedCF op a b) := by simp [Statement, encode]

end Sys2Proof.Laws.EncodeFields
end

