-- ==== Sys2Proof/Laws/Protocol.lean ====
section
/-! SUPPORT. Laws/Protocol.lean: what one instruction, one hold and one step can do, said once. -/

namespace Sys2Proof.Machine

/-- Every command drives the two outputs and nothing else, and does so from the build alone. -/
theorem exec_drives (i : Instr) (build : Build) :
    ∃ v ill, ∀ s : State, s.build = build → exec i s = .next (s.drive v ill) := by
  cases i
  case and a b =>
    cases h : build.hasAnd
    · exact ⟨0x00#8, true, fun s hs => by simp [exec, execAnd, hs, h, State.driveIllegal]⟩
    · exact ⟨zext8 (and4 a b), false, fun s hs => by simp [exec, execAnd, hs, h, State.driveNibble]⟩
  case sub a b =>
    exact ⟨zext8 (sub4 build.subTable a b), false, fun s hs => by simp [exec, execSub, hs, State.driveNibble]⟩
  all_goals exact ⟨_, _, fun s _ => rfl⟩

/-- Holding: settled outputs stay, or the outputs settle, or they are drawn again with the time left counted
down, or nothing is driven and they are drawn again. -/
theorem holdFor_cases (t : Nat) (s : State) :
    (s.settled = true ∧ holdFor t s = .next s) ∨
    (s.settled = false ∧ s.driven = true ∧ s.settleLeft ≤ t ∧ holdFor t s = exec (decode s.onPorts) s.settleNow) ∨
    (s.driven = true ∧ t < s.settleLeft ∧
      holdFor t s = .next ({ s with settleLeft := s.settleLeft - t }).redraw) ∨
    (s.driven = false ∧ holdFor t s = .next s.redraw) := by
  cases hs : s.settled with
  | true => exact .inl ⟨rfl, by simp [holdFor, hs]⟩
  | false =>
    cases hd : s.driven with
    | false => exact .inr (.inr (.inr ⟨rfl, by simp [holdFor, hs, hd]⟩))
    | true =>
      by_cases hl : s.settleLeft ≤ t
      · exact .inr (.inl ⟨rfl, rfl, hl, by simp [holdFor, hs, hd, hl, settle]⟩)
      · exact .inr (.inr (.inl ⟨rfl, by omega, by simp [holdFor, hs, hd, hl]⟩))

/-- A step is the next action of the script, on the state without it; with no action, one unit of holding. -/
theorem step_cases (s : State) :
    (s.script = [] ∧ step s = holdFor 1 s) ∨
    (∃ x rest, s.script = x :: rest ∧ step s = act x (s.withScript rest)) := by
  cases h : s.script with
  | nil => exact .inl ⟨rfl, by simp [step, h, idle]⟩
  | cons x rest => exact .inr ⟨x, rest, rfl, by simp [step, h]⟩

@[simp] theorem State.onPorts_withScript (s : State) (l : List HostAction) :
    (s.withScript l).onPorts = s.onPorts := rfl

theorem State.onPorts_present (s : State) (c : Command) : (s.present c).onPorts = c := by
  rcases s.present_cases c with ⟨_, h, e⟩ | ⟨_, e⟩
  · rw [e, h]
  · rw [e]; exact pack_fields c

/-- After issuing, the ports hold the word's fields, whether or not they did before. -/
theorem State.present_ports (s : State) (c : Command) :
    (s.present c).op = opField c ∧ (s.present c).a = aField c ∧ (s.present c).b = bField c := by
  have h := s.onPorts_present c
  have ho := congrArg opField h
  have ha := congrArg aField h
  have hb := congrArg bField h
  simp only [State.onPorts, opField_pack, aField_pack, bField_pack] at ho ha hb
  exact ⟨ho, ha, hb⟩

@[simp] theorem State.present_op (s : State) (c : Command) : (s.present c).op = opField c := (s.present_ports c).1
@[simp] theorem State.present_a (s : State) (c : Command) : (s.present c).a = aField c := (s.present_ports c).2.1
@[simp] theorem State.present_b (s : State) (c : Command) : (s.present c).b = bField c := (s.present_ports c).2.2

/-- A run whose first step goes on is the run of the rest. -/
theorem core_run_succ {s t : State} (k : Nat) (h : step s = .next t) : core.run (k + 1) s = core.run k t := by
  have h' : core.step s = Host.Outcome.next t := h
  simp only [Host.Core.run, h']

end Sys2Proof.Machine
end

