-- ==== Sys2Proof/Tests/Slice0.lean ====
section
/-! SUPPORT. Tests/Slice0.lean: small tests with results from the spec's own vectors (95_test_vectors.md, 30_encoding.md),
the smoke test of WellFormed, and a witness of each statement's hypotheses. -/

namespace Sys2Proof.Tests

open Sys2Proof Sys2Proof.Machine

/-! ### Small states -/

/-- A block with `T_SETTLE` of 5 units, just powered, with a script; its outputs are draw 2, the latest of three. -/
def rig (l : List HostAction) : State where
  build := ⟨true, .arith, 5⟩
  op := 0
  a := 0
  b := 0
  driven := false
  settleLeft := 5
  y := Config.freeY 2
  ill := Config.freeIll 2
  draws := 3
  script := l
  samples := []

/-- The same block on which `ADD 7, 9` has settled (`0x079`, 95 P5). -/
def calm (l : List HostAction) : State :=
  { rig l with driven := true, a := 7, b := 9, settleLeft := 0, y := 0x00, ill := false }

/-- The same inputs, held for 2 of the 5 units. -/
def busy (l : List HostAction) : State := { rig l with driven := true, a := 7, b := 9, settleLeft := 3 }

/-- A block without AND, built with the document's subtractor table. -/
def plain (l : List HostAction) : State := { rig l with build := ⟨false, .literal, 5⟩ }

/-- The outputs after one step that runs a table word. -/
def outOf (s : State) (w : Nat) : Option (Byte × Bool) :=
  match step (s.withFetchWord 12 w) with
  | .next t => some (t.y, t.ill)
  | .fault _ => none
  | .refused _ => none

/-! ### Decoding: words written out from 30_encoding.md -/

theorem test_decode_add : decode 0b0000_1100_1100#12 = .add 0b1100 0b1100 := by decide
theorem test_decode_sub : decode 0b0001_0001_0010#12 = .sub 0b0001 0b0010 := by decide
theorem test_decode_xor : decode 0b0010_0011_0101#12 = .xor 0b0011 0b0101 := by decide
theorem test_decode_or : decode 0b0011_0011_0100#12 = .or 0b0011 0b0100 := by decide
theorem test_decode_and : decode 0b0100_1100_1010#12 = .and 0b1100 0b1010 := by decide
theorem test_decode_rol : decode 0b0101_1001_1111#12 = .rol 0b1001 0b1111 := by decide
theorem test_decode_ror : decode 0b0110_1001_1110#12 = .ror 0b1001 0b1110 := by decide
theorem test_decode_zext : decode 0b0111_1011_0111#12 = .zext 0b1011 0b0111 := by decide
theorem test_decode_trunc : decode 0b1000_0001_1011#12 = .trunc 0b0001 0b1011 := by decide
theorem test_decode_reserved9 : decode 0b1001_1010_1011#12 = .reserved9 0b1010 0b1011 := by decide
theorem test_decode_reservedAB : decode 0b1011_0001_0010#12 = .reservedAB 0b1011 0b0001 0b0010 := by decide
theorem test_decode_reservedCF : decode 0b1111_1111_1111#12 = .reservedCF 0b1111 0b1111 0b1111 := by decide
theorem test_decode_rejects_wide_number : decodeTableWord 16 0x1000 = none := by decide
/-- The model's reading of a number longer than its word (log entry 10). -/
theorem test_decode_drops_bits_above_nbits : decodeTableWord 12 0x1000 = some (.add 0 0) := by decide
theorem test_commandOfNat_rejects_by_name : commandOfNat 4096 = .error .widerThanCommand := by decide

/-! ### WellFormed refuses (R44, R49) -/

theorem smoke_reservedAB_below : (Instr.reservedAB 0x9 0 0).wellFormed = false := by decide
theorem smoke_reservedAB_above : (Instr.reservedAB 0xC 0 0).wellFormed = false := by decide
theorem smoke_reservedCF_below : (Instr.reservedCF 0xB 0 0).wellFormed = false := by decide
theorem smoke_nibble_out_of_range : Source.wellFormed ⟨.add, [.lit 16, .lit 0]⟩ = false := by decide
theorem smoke_byte_out_of_range : Source.wellFormed ⟨.trunc, [.lit 256]⟩ = false := by decide
theorem smoke_operand_count : Source.wellFormed ⟨.zext, [.lit 1, .lit 2]⟩ = false := by decide
theorem smoke_amount_any : Source.wellFormed ⟨.rol, [.lit 2, .lit 4099]⟩ = true := by decide

/-! ### One step each: 95_test_vectors.md L2 -/

theorem test_add_wraps : outOf (rig []) 0x0F1 = some (0x00, false) := by decide
theorem test_add_9_9 : outOf (rig []) 0x099 = some (0x02, false) := by decide
theorem test_add_carries : (List.range 5).map (carry 12 12) = [false, false, false, true, true] := by decide
theorem test_sub_wraps : outOf (rig []) 0x101 = some (0x0F, false) := by decide
theorem test_sub_arith_row : outOf (rig []) 0x123 = some (0x0F, false) := by decide
theorem test_sub_borrows : (List.range 5).map (borrow .arith 8 1) = [false, true, true, true, false] := by decide
theorem test_sub_literal_row : outOf (plain []) 0x123 = some (0x03, false) := by decide
theorem test_xor : outOf (rig []) 0x235 = some (0x06, false) := by decide
theorem test_or : outOf (rig []) 0x334 = some (0x07, false) := by decide
theorem test_and : outOf (rig []) 0x4CA = some (0x08, false) := by decide
theorem test_and_absent : outOf (plain []) 0x4CA = some (0x00, true) := by decide
theorem test_rol : outOf (rig []) 0x523 = some (0x01, false) := by decide
theorem test_rol_amount_15 : outOf (rig []) 0x59F = some (0x0C, false) := by decide
theorem test_ror : outOf (rig []) 0x621 = some (0x01, false) := by decide
theorem test_ror_amount_14 : outOf (rig []) 0x69E = some (0x06, false) := by decide
theorem test_zext_ignores_b : outOf (rig []) 0x7B7 = some (0x0B, false) := by decide
theorem test_trunc : outOf (rig []) 0x8AB = some (0x0B, false) := by decide
theorem test_trunc_f0 : outOf (rig []) 0x8F0 = some (0x00, false) := by decide
theorem test_reserved9 : outOf (rig []) 0x9AB = some (0x00, true) := by decide
theorem test_reservedAB : outOf (rig []) 0xAFF = some (0x00, true) := by decide
theorem test_reservedCF : outOf (rig []) 0xFFF = some (0x00, true) := by decide

/-- A command runs as the first step after reset (`ADD 12, 12`, 95 E3). -/
theorem test_first_after_reset : outOf State.reset 0x0CC = some (0x08, false) := by decide

/-- P5: an illegal command leaves nothing behind; the samples stand in their order. -/
theorem test_illegal_then_add :
    (match core.run 2 (rig [.command 0x9AB, .command 0x079]) with
      | .next t => some (State.samples t)
      | _ => none) = some [⟨0x00, true⟩, ⟨0x00, false⟩] := by decide

/-! ### The assembler: R47 to R49 and its encoding examples -/

/-- The word a line of text assembles to. -/
def wordOf (cs : List Char) : Option Nat :=
  match lineOf cs with
  | .ok (some l) =>
    match assemble [] l.source with
    | .ok i => some (encode i).toNat
    | .error _ => none
  | _ => none

theorem test_text_add : wordOf ['A', 'D', 'D', ' ', '1', '2', ',', ' ', '1', '2'] = some 0x0CC := by decide
theorem test_text_binary_operands :
    wordOf ['a', 'n', 'd', ' ', '0', 'b', '1', '1', '0', '0', ',', '0', 'b', '1', '0', '1', '0', ';', '!']
      = some 0x4CA := by decide
theorem test_text_amount_mod_4 : wordOf ['R', 'O', 'R', ' ', '2', ',', ' ', '7'] = some 0x623 := by decide
theorem test_text_hex_byte : wordOf ['T', 'R', 'U', 'N', 'C', ' ', '0', 'x', '1', 'B'] = some 0x81B := by decide
theorem test_text_binary_amount :
    wordOf ['R', 'O', 'L', ' ', '2', ',', ' ', '0', 'b', '1', '1'] = some 0x523 := by decide
theorem test_text_not : wordOf ['N', 'O', 'T', ' ', '5'] = some 0x25F := by decide
theorem test_text_max : wordOf ['Z', 'E', 'X', 'T', ' ', 'M', 'A', 'X'] = some 0x7F0 := by decide
theorem test_text_host_line :
    lineOf ['r', ' ', '=', ' ', 'R', 'O', 'L', ' ', 'v', ',', ' ', '1'] =
      .ok (some ⟨some ['r'], ⟨.rol, [.name ['v'], .lit 1]⟩⟩) := by decide
/-- The model's reading of a blank line (log entry 11). -/
theorem test_text_blank_line : lineOf [' ', '\t'] = .ok none := by decide
theorem test_text_comment_only : lineOf [';', ' ', 'x'] = .ok none := by decide
theorem test_text_refuses_range :
    wordOf ['A', 'D', 'D', ' ', '1', '6', ',', ' ', '1'] = none := by decide
theorem test_text_unknown_mnemonic :
    lineOf ['M', 'U', 'L', ' ', '1'] = .error (.unknownMnemonic ['M', 'U', 'L']) := by decide
theorem test_text_destination_max :
    lineOf ['M', 'A', 'X', ' ', '=', ' ', 'A', 'D', 'D', ' ', '1', ',', ' ', '2'] = .error (.badName ['M', 'A', 'X']) := by
  decide
theorem test_text_destination_number :
    lineOf ['5', ' ', '=', ' ', 'A', 'D', 'D', ' ', '1', ',', ' ', '2'] = .error (.badName ['5']) := by decide

/-- The model's reading of the case of names (log entry 11). -/
theorem test_names_keep_their_case : Env.find ['A'] [(['a'], 1), (['A'], 2)] = some 2 := by decide

/-- P2, steps 1 and 4: `n0 = TRUNC 0xAB`, `s = ADD n0, 1` gives 12. -/
theorem test_host_program :
    (match runLines [⟨some ['n'], ⟨.trunc, [.lit 0xAB]⟩⟩, ⟨some ['s'], ⟨.add, [.name ['n'], .lit 1]⟩⟩] [] (rig []) with
      | .ok (env, _) => env
      | .error _ => []) = [(['s'], 0x0C), (['n'], 0x0B)] := by decide

/-- P3 on a block without AND: the host discards the result. -/
theorem test_host_discards_illegal :
    (match runLine ⟨some ['k'], ⟨.and, [.lit 15, .lit 5]⟩⟩ [] (plain []) with
      | .ok (env, _) => env
      | .error _ => [(['x'], 0)]) = [] := by decide

/-! ### Witnesses: each statement's hypotheses are met together -/

theorem rig_inv (l : List HostAction) : (rig l).Inv where
  tSettle_pos := Nat.succ_pos 4
  left_le := Nat.le_refl 5
  undriven _ := rfl
  outputs h := Bool.noConfusion h
  drawn _ := ⟨Nat.succ_pos 2, rfl, rfl⟩

theorem calm_inv (l : List HostAction) : (calm l).Inv where
  tSettle_pos := Nat.succ_pos 4
  left_le := Nat.zero_le 5
  undriven h := Bool.noConfusion h
  outputs _ := by change ((0x00#8, false) : Byte × Bool) = eval ⟨true, .arith, 5⟩ 0 7 9; decide
  drawn h := Bool.noConfusion h

theorem busy_inv (l : List HostAction) : (busy l).Inv where
  tSettle_pos := Nat.succ_pos 4
  left_le := Nat.le_add_right 3 2
  undriven h := Bool.noConfusion h
  outputs h := Bool.noConfusion h
  drawn _ := ⟨Nat.succ_pos 2, rfl, rfl⟩

theorem witness_DecodeOfEncodeIsTheCommand :
    (Instr.reservedAB 0xA 3 4).wellFormed = true ∧ (Instr.reservedCF 0xC 3 4).wellFormed = true := by decide
theorem witness_CommandWordDrivesThePorts : (rig [.issue 0x0CC]).script = .issue 0x0CC :: [] := rfl
theorem witness_AddRipplesToTheSumModSixteen :
    carry 12 12 0 = false ∧
    ∀ j < 4, carry 12 12 (j + 1) = (((12#4).getLsbD j && (12#4).getLsbD j) ||
      (carry 12 12 j && ((12#4).getLsbD j ^^ (12#4).getLsbD j))) := by decide
theorem witness_SubRipplesToTheDifference :
    (rig []).build.subTable = .arith ∧ borrow .arith 2 3 0 = false ∧
    ∀ j < 4, borrow .arith 2 3 (j + 1) = ((!(2#4).getLsbD j && (3#4).getLsbD j) ||
      (borrow .arith 2 3 j && !((2#4).getLsbD j ^^ (3#4).getLsbD j))) := by decide
theorem witness_SubRipplesToTheDifference_literal :
    (plain []).build.subTable = .literal ∧ borrow .literal 2 3 0 = false ∧
    ∀ j < 4, borrow .literal 2 3 (j + 1) = (!(2#4).getLsbD j && ((3#4).getLsbD j || borrow .literal 2 3 j)) := by
  decide
theorem witness_LiteralSubDiffersOnThirtySixPairs : (plain []).build.subTable = .literal := rfl
theorem witness_AndWorksBitByBitWhereTheBlockHasIt :
    (rig []).build.hasAnd = true ∧ (plain []).build.hasAnd = false := by decide
theorem witness_ReservedOpsDriveIllegal :
    9 ≤ (0x9#4).toNat ∧ 9 ≤ (0xF#4).toNat ∧ (4#4 = 0x4#4 ∧ (plain []).build.hasAnd = false) ∧
    ¬ (9 ≤ (0x8#4).toNat ∨ (0x8#4 = 0x4#4 ∧ (plain []).build.hasAnd = false)) ∧
    ¬ (9 ≤ (0x4#4).toNat ∨ (0x4#4 = 0x4#4 ∧ (rig []).build.hasAnd = false)) := by decide
theorem witness_EveryLegalCommandCompletes :
    (Instr.trunc 15 15).wellFormed = true ∧ legal (plain []).build (.trunc 15 15) = true ∧
    legal (rig []).build (.and 15 15) = true ∧ legal (plain []).build (.and 15 15) = false := by decide
theorem witness_UnreadFieldsDoNotMatter :
    (1#4).toNat % 4 = (13#4).toNat % 4 ∧ reservedOp (rig []).build 0x9 = true ∧
    reservedOp (plain []).build 0x4 = true := by decide
theorem witness_CommandWordDrivesThePorts_boundary :
    commandOfNat 4095 = .ok 0xFFF ∧ commandOfNat 4096 = .error .widerThanCommand := by decide
theorem witness_GateLaws : and4 0x5 0xA = 0 := by decide
theorem witness_AssemblerEncodesOperandsInRange :
    (15 : Nat) < 16 ∧ 16 ≤ (16 : Nat) ∧ (255 : Nat) < 256 ∧ 256 ≤ (256 : Nat) ∧
    Mnem.and ∈ [Mnem.add, .sub, .xor, .or, .and] := by decide
theorem witness_RotationsInDocumentIndices : (0 : Nat) < 4 ∧ (3 : Nat) < 4 := by decide
theorem witness_StepRunsTheDecodedCommand :
    (Instr.rol 9 15).wellFormed = true ∧
    (rig [.command (encode (.rol 9 15))]).script = .command (encode (.rol 9 15)) :: [] := ⟨rfl, rfl⟩
theorem witness_HoldingSettlesTheOutputs :
    (busy [.hold 3]).Inv ∧ (busy [.hold 3]).driven = true ∧ (busy [.hold 3]).script = .hold 3 :: [] ∧
    (busy [.hold 3]).settleLeft ≤ 3 ∧ 2 < (busy [.hold 2]).settleLeft := ⟨busy_inv _, by decide⟩
theorem witness_HoldingSettlesTheOutputs_idle :
    (busy []).Inv ∧ (busy []).driven = true ∧ (busy []).script = [] ∧ 1 < (busy []).settleLeft ∧
    (calm []).Inv ∧ (calm []).driven = true ∧ (calm []).script = [] ∧ (calm []).settleLeft ≤ 1 ∧
    (rig []).Inv ∧ (rig []).script = [] ∧ (rig []).driven = false :=
  ⟨busy_inv _, rfl, rfl, by decide, calm_inv _, rfl, rfl, by decide, rig_inv _, rfl, rfl⟩
theorem witness_InputChangeRestartsSettling :
    (calm [.issue 0x078]).script = .issue 0x078 :: [] ∧ (calm [.issue 0x078]).driven = true ∧
    pack (calm []).op (calm []).a (calm []).b ≠ 0x078 ∧ pack (calm []).op (calm []).a (calm []).b = 0x079 := by decide
theorem witness_InputChangeRestartsSettling_undriven :
    (rig [.issue 0x000]).script = .issue 0x000 :: [] ∧ (rig [.issue 0x000]).driven = false ∧
    pack (rig []).op (rig []).a (rig []).b = 0x000 := by decide
theorem witness_HoldsAddUpToTheSettlingTime :
    (rig [.issue 0x079, .hold 2, .hold 3]).Inv ∧
    (rig [.issue 0x079, .hold 2, .hold 3]).script = .issue 0x079 :: ([2, 3].map HostAction.hold ++ []) ∧
    (rig []).build.tSettle ≤ [2, 3].sum ∧ [2, 2].sum < (rig []).build.tSettle ∧ (rig []).driven = false :=
  ⟨rig_inv _, by decide⟩
theorem witness_SettledSampleChangesNothing :
    (calm [.sample, .sample]).script = .sample :: [.sample] ∧ (calm [.sample, .sample]).settled = true := by decide
theorem witness_UnsettledSampleIsADraw :
    (busy [.sample]).script = .sample :: [] ∧ (busy [.sample]).settled = false ∧ (busy [.sample]).Inv :=
  ⟨rfl, rfl, busy_inv _⟩
theorem witness_PowerUpOutputsAreFreeUntilHeld :
    0 < (calm []).build.tSettle ∧ (calm [.powerCycle, .hold 5]).driven = true ∧
    (calm [.powerCycle, .hold 5]).script = .powerCycle :: .hold 5 :: [] ∧
    4 < (calm []).build.tSettle ∧ (calm []).build.tSettle ≤ 5 := by decide
theorem witness_ReleasedInputsNeverSettle :
    (calm [.release, .hold 9]).script = .release :: ([9].map HostAction.hold ++ []) := rfl
theorem witness_CommandIsIssueHoldSample : (busy []).Inv := busy_inv _
theorem witness_OutputsDependOnlyOnTheInputs :
    (rig [.command 0x079]).build = (busy [.command 0x079]).build ∧
    (rig [.command 0x079]).script = .command 0x079 :: [] ∧ (busy [.command 0x079]).script = .command 0x079 :: [] := by
  decide
theorem witness_OutputsDependOnlyOnTheInputs_settled :
    (calm []).Inv ∧ (calm [.sample]).Inv ∧ (calm []).settled = true ∧ (calm [.sample]).settled = true ∧
    (calm []).build = (calm [.sample]).build ∧ (calm []).op = (calm [.sample]).op ∧
    (calm []).a = (calm [.sample]).a ∧ (calm []).b = (calm [.sample]).b := ⟨calm_inv _, calm_inv _, by decide⟩
theorem witness_ProgramResultIsItsSettledSamples :
    (rig [.command 0x0CC, .command 0x9AB]).script = [0x0CC, 0x9AB].map HostAction.command ++ [] := rfl
theorem witness_SettledSamplingSeesEval :
    (calm [.sample]).Inv ∧ (calm [.sample]).samplesSettled ∧ ∃ t, step (calm [.sample]) = .next t :=
  ⟨calm_inv _, fun _ => rfl, _, rfl⟩
theorem witness_EveryStepKeepsTheInvariant : (busy [.hold 1]).Inv ∧ ∃ t, step (busy [.hold 1]) = .next t :=
  ⟨busy_inv _, _, rfl⟩
theorem witness_NoStepChangesTheBuild : ∃ t, step (plain [.command 0x123]) = .next t := ⟨_, rfl⟩
theorem witness_AssemblerAcceptsExactlyTheWellFormed :
    assemble [(['v'], 0xAB)] ⟨.xor, [.name ['v'], .lit 15]⟩ = .ok (.xor 11 15) := by decide
theorem witness_KeptNamesAreSubstituted :
    Env.find ['p'] [(['p'], 0xAB), (['q'], 0xFF)] = some 0xAB ∧ Env.find ['q'] [(['p'], 0xAB), (['q'], 0xFF)] = some 0xFF ∧
    Mnem.ror ∈ [Mnem.add, .sub, .xor, .or, .and, .rol, .ror] ∧ (15 : Nat) < 16 ∧
    Env.find ['r'] [(['p'], 0xAB)] = none ∧ (['p'] : Name) ≠ ['q'] := by decide
theorem witness_OperandTextReadsAsItsValue :
    ([0, 9] : List Nat) ≠ [] ∧ (∀ d ∈ [0, 9], d < 10) ∧ (∀ d ∈ [10, 15, 0], d < 16) ∧ (∀ d ∈ [0, 1], d < 2) ∧
    List.Forall₂ (fun d c => c ∈ hexChars d) [10, 15, 0] ['A', 'f', '0'] := by decide
theorem witness_MnemonicsAreReadInEitherCase :
    (['O', 'R'], Mnem.or) ∈ spelledMnemonics ∧
    List.Forall₂ (fun c l => c = l ∨ c = Char.ofNat (l.toNat + 32)) ['o', 'R'] ['O', 'R'] ∧
    mnemOf ['o', 'R'] = .ok .or := ⟨by simp [spelledMnemonics], .cons (.inr rfl) (.cons (.inl rfl) .nil), rfl⟩
theorem witness_LinesReadAsTheirParts :
    isWord ['r', 'o', 'l'] ∧ isWord ['v'] ∧ isWord ['1'] ∧ isWord ['M', 'A', 'X'] ∧
    mnemOf ['r', 'o', 'l'] = .ok .rol ∧ operandOf ['v'] = .ok (.name ['v']) ∧ operandOf ['1'] = .ok (.lit 1) ∧
    isName ['v'] = true ∧ isName ['M', 'A', 'X'] = false ∧ isName ['1'] = false :=
  ⟨by simp [isWord], by simp [isWord], by simp [isWord], by simp [isWord], by decide⟩
theorem witness_HostLinesRunAndKeepResults :
    assemble [(['v'], 9)] (HostLine.source ⟨some ['r'], ⟨.rol, [.name ['v'], .lit 1]⟩⟩) = .ok (.rol 9 1) ∧
    (eval (rig []).build 5 9 1).2 = false ∧ (eval (plain []).build 4 15 5).2 = true := by decide

end Sys2Proof.Tests
end

section
/-! PROOFS. The state: what a command, a transaction and a step change and leave unchanged (10_state.md R10 to R16). -/

namespace Sys2Proof.Machine

/-! ### One command -/

/-- A command answers its state with the two outputs driven and all else as it was. -/
theorem exec_eq_drive (i : Instr) (s : State) : ∃ v ill, exec i s = .next (s.drive v ill) := by
  obtain ⟨v, ill, h⟩ := exec_drives i s.build
  exact ⟨v, ill, h s rfl⟩

theorem exec_build {i : Instr} {s t : State} (h : exec i s = .next t) : t.build = s.build := by
  obtain ⟨v, ill, hd⟩ := exec_eq_drive i s
  obtain rfl : s.drive v ill = t := by simpa [hd] using h
  exact s.drive_build v ill

/-- Settles O19: what `exec_eq_drive` answers differs from the state in `y` and `ill` alone. -/
theorem commandsChangeOnlyTheOutputs : Obligations.CommandsChangeOnlyTheOutputs := by
  intro s i
  obtain ⟨v, ill, h⟩ := exec_eq_drive i s
  exact ⟨s.drive v ill, h, by simp⟩

/-! ### One transaction -/

/-- The transaction of R117 drives outputs that the word and the build alone fix, and samples them settled. -/
theorem runCommand_drives (c : Command) (build : Build) :
    ∃ v ill, ∀ s : State, s.build = build →
      runCommand c s = .next ((s.present c).settleNow.drive v ill).record := by
  obtain ⟨v, ill, h⟩ := exec_drives (decode c) build
  refine ⟨v, ill, fun s hs => ?_⟩
  have hexec := h (s.present c).settleNow (by simpa using hs)
  have hsettled : ((s.present c).settleNow.drive v ill).settled = true := by simp
  rw [runCommand, hexec, onNext_next, State.takeSample_of_settled hsettled]

theorem step_of_command {s : State} {c : Command} {rest : List HostAction} (h : s.script = .command c :: rest) :
    step s = runCommand c (s.withScript rest) := by
  simp [step, h, act]

/-- Settles O39: the outputs that `runCommand_drives` gives do not depend on the state the command starts from, and
settled outputs are `eval` of the inputs by the invariant. -/
theorem outputsDependOnlyOnTheInputs : Obligations.OutputsDependOnlyOnTheInputs := by
  refine ⟨fun s₁ s₂ c l₁ l₂ hbuild h₁ h₂ => ?_, fun s₁ s₂ i₁ i₂ st₁ st₂ hbuild hop ha hb => ?_⟩
  · obtain ⟨v, ill, hrun⟩ := runCommand_drives c s₂.build
    refine ⟨_, _, ⟨v, ill⟩, (step_of_command h₁).trans (hrun _ hbuild), (step_of_command h₂).trans (hrun _ rfl), ?_⟩
    simp
  · have heval : (s₁.y, s₁.ill) = (s₂.y, s₂.ill) := by
      rw [i₁.outputs st₁, i₂.outputs st₂, hbuild, hop, ha, hb]
    exact Prod.mk.inj heval

/-! ### One step -/

theorem holdFor_build {d : Nat} {s t : State} (h : holdFor d s = .next t) : t.build = s.build := by
  rcases holdFor_cases d s with ⟨_, e⟩ | ⟨_, _, _, e⟩ | ⟨_, _, e⟩ | ⟨_, e⟩ <;> rw [e] at h
  · cases h; rfl
  · exact (exec_build h).trans s.settleNow_build
  · cases h; rfl
  · cases h; rfl

theorem runCommand_build {c : Command} {s t : State} (h : runCommand c s = .next t) : t.build = s.build := by
  obtain ⟨v, ill, hrun⟩ := runCommand_drives c s.build
  rw [hrun s rfl] at h
  cases h
  simp

theorem act_build {x : HostAction} {s t : State} (h : act x s = .next t) : t.build = s.build := by
  cases x with
  | command c => exact runCommand_build h
  | hold d => exact holdFor_build h
  | issue c => cases h; exact s.present_build c
  | sample => cases h; exact s.takeSample_build
  | release => cases h; rfl
  | powerCycle => cases h; rfl

/-- Settles O45: a step is one action of the host or one hold, and neither changes the build. -/
theorem noStepChangesTheBuild : Obligations.NoStepChangesTheBuild := by
  intro s t h
  rcases step_cases s with ⟨_, e⟩ | ⟨x, rest, _, e⟩ <;> rw [e] at h
  · exact holdFor_build h
  · exact (act_build h).trans (s.withScript_build rest)

end Sys2Proof.Machine
end

section
/-! PROOFS. Operand text: the characters of digits, the numbers they write, and names (30_encoding.md R47). -/

namespace Sys2Proof.Machine

/-! ### Digits -/

theorem toNat_ofNat_of_lt {n : Nat} (h : n < 128) : (Char.ofNat n).toNat = n :=
  (Char.toNat_ofNat n).trans (if_pos (.inl (by omega)))

theorem toNat_upper (c : Char) :
    (upper c).toNat = if 97 ≤ c.toNat ∧ c.toNat ≤ 122 then c.toNat - 32 else c.toNat := by
  unfold upper
  split
  · exact toNat_ofNat_of_lt (by omega)
  · rfl

theorem eq_ofNat_iff (c : Char) {n : Nat} (h : n < 128) : c = Char.ofNat n ↔ c.toNat = n := by
  rw [← Char.toNat_inj, toNat_ofNat_of_lt h]

theorem hexChars_of_lt_ten {d : Nat} (h : d < 10) : hexChars d = [decChar d] := by
  simp [hexChars, h]

theorem mem_hexChars_iff (c : Char) {d : Nat} (h : d < 16) :
    c ∈ hexChars d ↔
      if d < 10 then c.toNat = 48 + d else c.toNat = 55 + d ∨ c.toNat = 87 + d := by
  unfold hexChars decChar
  split
  · simp [eq_ofNat_iff c (show 48 + d < 128 by omega)]
  · simp [eq_ofNat_iff c (show 55 + d < 128 by omega), eq_ofNat_iff c (show 87 + d < 128 by omega)]

/-- A character is a digit of a base exactly when it is one of the characters its value is written with. -/
theorem digit_eq_some_iff {base : Nat} (hbase : base ≤ 16) (c : Char) (d : Nat) :
    digit base c = some d ↔ d < base ∧ c ∈ hexChars d := by
  by_cases hd : d < base
  · rw [mem_hexChars_iff c (by omega)]
    simp only [digit, toNat_upper, Option.ite_none_right_eq_some, Option.some.injEq]
    split_ifs <;> omega
  · simp only [digit, Option.ite_none_right_eq_some, Option.some.injEq]
    omega

theorem digit_decChar {base d : Nat} (hbase : base ≤ 10) (h : d < base) : digit base (decChar d) = some d :=
  (digit_eq_some_iff (by omega) _ _).2 ⟨h, by simp [hexChars_of_lt_ten (show d < 10 by omega)]⟩

theorem digit_ten_isSome_iff (c : Char) : (digit 10 c).isSome = true ↔ ∃ d < 10, c = decChar d := by
  simp only [Option.isSome_iff_exists, digit_eq_some_iff (show 10 ≤ 16 by decide)]
  refine exists_congr fun d => and_congr_right fun hd => ?_
  simp [hexChars_of_lt_ten hd]

/-! ### Numbers -/

/-- A string of digits reads as the value it writes. -/
theorem digits_eq_foldl {base : Nat} {ds : List Nat} {cs : List Char}
    (h : List.Forall₂ (fun d c => digit base c = some d) ds cs) (acc : Nat) :
    digits base acc cs = some (ds.foldl (fun n d => n * base + d) acc) := by
  induction h generalizing acc with
  | nil => rfl
  | cons hd _ ih => simp [digits, hd, ih]

theorem forall₂_digit_decChar {base : Nat} {ds : List Nat} (hbase : base ≤ 10) (h : ∀ d ∈ ds, d < base) :
    List.Forall₂ (fun d c => digit base c = some d) ds (ds.map decChar) :=
  List.forall₂_map_right_iff.2 (List.forall₂_same.2 fun d hd => digit_decChar hbase (h d hd))

theorem forall₂_digit_hexChars {ds : List Nat} {cs : List Char} (h : ∀ d ∈ ds, d < 16)
    (hcs : List.Forall₂ (fun d c => c ∈ hexChars d) ds cs) :
    List.Forall₂ (fun d c => digit 16 c = some d) ds cs := by
  induction hcs with
  | nil => exact .nil
  | cons hc _ ih =>
    obtain ⟨hd, hds⟩ := List.forall_mem_cons.1 h
    exact .cons ((digit_eq_some_iff le_rfl _ _).2 ⟨hd, hc⟩) (ih hds)

theorem number_hex {cs : List Char} (h : cs ≠ []) : number ('0' :: 'x' :: cs) = digits 16 0 cs := by
  cases cs with
  | nil => contradiction
  | cons c cs => rfl

theorem number_binary {cs : List Char} (h : cs ≠ []) : number ('0' :: 'b' :: cs) = digits 2 0 cs := by
  cases cs with
  | nil => contradiction
  | cons c cs => rfl

/-- A word of decimal digits alone has no `x` or `b` after its first digit, so it is read in base 10. -/
theorem number_decimal {cs : List Char} (hne : cs ≠ []) (h : ∀ c ∈ cs, (digit 10 c).isSome = true) :
    number cs = digits 10 0 cs := by
  unfold number
  split
  · exact absurd (h 'x' (by simp)) (by decide)
  · exact absurd (h 'b' (by simp)) (by decide)
  · rfl
  · contradiction

/-! ### Operands -/

theorem operandOf_number {c : Char} {cs : List Char} {n : Nat} (hc : (digit 10 c).isSome = true)
    (hn : number (c :: cs) = some n) : operandOf (c :: cs) = .ok (.lit n) := by
  have hM : c ≠ 'M' := by rintro rfl; exact absurd hc (by decide)
  simp [operandOf, hM, hc, hn]

theorem operandOf_decimal {ds : List Nat} (hne : ds ≠ []) (h : ∀ d ∈ ds, d < 10) :
    operandOf (ds.map decChar) = .ok (.lit (valueOf 10 ds)) := by
  have hdigits : ∀ c ∈ ds.map decChar, (digit 10 c).isSome = true := by
    intro c hc
    obtain ⟨d, hd, rfl⟩ := List.mem_map.1 hc
    simp [digit_decChar le_rfl (h d hd)]
  have hnumber : number (ds.map decChar) = some (valueOf 10 ds) := by
    rw [number_decimal (by simpa using hne) hdigits, digits_eq_foldl (forall₂_digit_decChar le_rfl h), valueOf]
  cases ds with
  | nil => contradiction
  | cons d ds => exact operandOf_number (hdigits _ (by simp)) hnumber

theorem operandOf_hex {ds : List Nat} {cs : List Char} (hne : ds ≠ []) (h : ∀ d ∈ ds, d < 16)
    (hcs : List.Forall₂ (fun d c => c ∈ hexChars d) ds cs) :
    operandOf ('0' :: 'x' :: cs) = .ok (.lit (valueOf 16 ds)) := by
  have hcsne : cs ≠ [] := by rintro rfl; cases hcs; contradiction
  refine operandOf_number (by decide) ?_
  rw [number_hex hcsne, digits_eq_foldl (forall₂_digit_hexChars h hcs), valueOf]

theorem operandOf_binary {ds : List Nat} (hne : ds ≠ []) (h : ∀ d ∈ ds, d < 2) :
    operandOf ('0' :: 'b' :: ds.map decChar) = .ok (.lit (valueOf 2 ds)) := by
  refine operandOf_number (by decide) ?_
  rw [number_binary (by simpa using hne), digits_eq_foldl (forall₂_digit_decChar (by decide) h), valueOf]

theorem isName_iff (cs : List Char) :
    isName cs = true ↔
      cs ≠ [] ∧ (∀ d < 10, cs.head? ≠ some (decChar d)) ∧ cs ≠ ['M', 'I', 'N'] ∧ cs ≠ ['M', 'A', 'X'] := by
  cases cs with
  | nil => simp [isName]
  | cons c cs =>
    have hdigit : (digit 10 c).isSome = false ↔ ∀ d < 10, c ≠ decChar d := by
      simpa using (digit_ten_isSome_iff c).not
    simp only [isName, Bool.and_eq_true, Bool.not_eq_true', hdigit, bne_iff_ne, List.head?_cons, Option.some.injEq,
      ne_eq, reduceCtorEq, not_false_eq_true, true_and, and_assoc]

/-- Only a word that is a name is read as one: each other branch of `operandOf` gives a number or a reason. -/
theorem operandOf_eq_name_iff (cs : List Char) : operandOf cs = .ok (.name cs) ↔ isName cs = true := by
  refine ⟨fun h => ?_, operandOf_of_isName⟩
  have hmin : cs ≠ ['M', 'I', 'N'] := by rintro rfl; cases h
  have hmax : cs ≠ ['M', 'A', 'X'] := by rintro rfl; cases h
  cases cs with
  | nil => cases h
  | cons c cs =>
    cases hd : (digit 10 c).isSome with
    | true => cases hn : number (c :: cs) <;> simp [operandOf, hmin, hmax, hd, hn] at h
    | false => simp [isName, hd, hmin, hmax]

/-- Settles O52: numbers by the digits they are written with, `MIN` and `MAX` by evaluation, names by `isName`. -/
theorem operandTextReadsAsItsValue : Obligations.OperandTextReadsAsItsValue :=
  ⟨fun _ => operandOf_decimal, fun _ _ => operandOf_hex, fun _ => operandOf_binary, rfl, rfl,
    operandOf_eq_name_iff, isName_iff⟩

end Sys2Proof.Machine
end

section
/-! PROOFS. One command computes `eval` of its fields (30_encoding.md R42): the gates as operators on nibbles, the state
with the outputs of `eval`, and the rows of the opcode map. -/

namespace Sys2Proof.Machine

/-! ### The gates as operators on nibbles (R70 to R72) -/

theorem xor4_eq_xor (a b : U4) : xor4 a b = a ^^^ b :=
  ext_bits fun _ hj => (bit_gate4 _ _ _ hj).trans BitVec.getLsbD_xor.symm

theorem or4_eq_or (a b : U4) : or4 a b = a ||| b :=
  ext_bits fun _ hj => (bit_gate4 _ _ _ hj).trans BitVec.getLsbD_or.symm

theorem and4_eq_and (a b : U4) : and4 a b = a &&& b :=
  ext_bits fun _ hj => (bit_gate4 _ _ _ hj).trans BitVec.getLsbD_and.symm

/-! ### The outputs of `eval` -/

/-- The state with the outputs that R42's function gives for `op`, `a` and `b`. -/
def State.driveEval (s : State) (op a b : U4) : State :=
  s.drive (eval s.build op a b).1 (eval s.build op a b).2

@[simp] theorem State.driveEval_build (s : State) (op a b : U4) : (s.driveEval op a b).build = s.build := rfl
@[simp] theorem State.driveEval_script (s : State) (op a b : U4) : (s.driveEval op a b).script = s.script := rfl
@[simp] theorem State.driveEval_samples (s : State) (op a b : U4) : (s.driveEval op a b).samples = s.samples := rfl
@[simp] theorem State.driveEval_y (s : State) (op a b : U4) : (s.driveEval op a b).y = (eval s.build op a b).1 := rfl
@[simp] theorem State.driveEval_ill (s : State) (op a b : U4) : (s.driveEval op a b).ill = (eval s.build op a b).2 :=
  rfl
@[simp] theorem State.settled_driveEval (s : State) (op a b : U4) : (s.driveEval op a b).settled = s.settled := rfl

/-! ### The rows of the opcode map -/

theorem execXor_eq_driveEval (a b : U4) (s : State) : execXor a b s = .next (s.driveEval 0x2 a b) := by
  rw [execXor, xor4_eq_xor]; rfl

theorem execOr_eq_driveEval (a b : U4) (s : State) : execOr a b s = .next (s.driveEval 0x3 a b) := by
  rw [execOr, or4_eq_or]; rfl

theorem execAnd_eq_driveEval (a b : U4) (s : State) : execAnd a b s = .next (s.driveEval 0x4 a b) := by
  cases h : s.build.hasAnd <;>
    simp [execAnd, State.driveEval, eval, h, State.driveNibble, State.driveIllegal, and4_eq_and]

/-- The command that `op`, `a` and `b` select drives `eval` of them: by the row lemmas for the gates, which `eval`
writes as operators on nibbles, and by evaluation for every other value of `op`. -/
theorem exec_decodeFields (op a b : U4) (s : State) :
    exec (decodeFields op a b) s = .next (s.driveEval op a b) := by
  obtain ⟨n, hn, rfl⟩ : ∃ n < 16, op = BitVec.ofNat 4 n := ⟨op.toNat, op.isLt, by simp⟩
  match n, hn with
  | 2, _ => exact execXor_eq_driveEval a b s
  | 3, _ => exact execOr_eq_driveEval a b s
  | 4, _ => exact execAnd_eq_driveEval a b s
  | 0, _ | 1, _ | 5, _ | 6, _ | 7, _ | 8, _ | 9, _ | 10, _ | 11, _ | 12, _ | 13, _ | 14, _ | 15, _ => rfl
  | _ + 16, hn => omega

theorem exec_decode (c : Command) (s : State) :
    exec (decode c) s = .next (s.driveEval (opField c) (aField c) (bField c)) :=
  exec_decodeFields _ _ _ s

end Sys2Proof.Machine
end

section
/-! PROOFS. Programs and their samples (70_reset_and_hazards.md R112, R117, R118): a settled sample, one transaction,
a list of commands. -/

namespace Sys2Proof.Machine

/-! ### A settled sample -/

theorem step_of_sample {s : State} {rest : List HostAction} (h : s.script = .sample :: rest) :
    step s = .next (s.withScript rest).takeSample := by
  simp [step, h, act]

/-- Settles O34: the step takes a sample of settled outputs, and such a sample is recorded and nothing else. -/
theorem settledSampleChangesNothing : Obligations.SettledSampleChangesNothing := by
  intro s rest hscript hsettled
  have hsettled' : (s.withScript rest).settled = true := hsettled
  rw [step_of_sample hscript, State.takeSample_of_settled hsettled']
  rfl

/-! ### One transaction -/

/-- The sample that a word gives on a build: `eval` of the word's own fields. -/
def sampleOf (build : Build) (c : Command) : Sample :=
  ⟨(eval build (opField c) (aField c) (bField c)).1, (eval build (opField c) (aField c) (bField c)).2⟩

/-- The transaction of R117 records the settled outputs, and those are `eval` of the word's fields. -/
theorem runCommand_eq_record (c : Command) (s : State) :
    runCommand c s =
      .next ((s.present c).settleNow.driveEval (opField c) (aField c) (bField c)).record := by
  rw [runCommand, exec_decode, onNext_next, State.takeSample_of_settled (by simp)]

/-- A step that runs a command appends its one sample, and leaves the rest of the script and the build. -/
theorem step_command_appends_sample {s : State} {c : Command} {rest : List HostAction}
    (h : s.script = .command c :: rest) :
    ∃ t, step s = .next t ∧ t.script = rest ∧ t.build = s.build ∧
      t.samples = s.samples ++ [sampleOf s.build c] :=
  ⟨_, (step_of_command h).trans (runCommand_eq_record c _), by simp [sampleOf]⟩

/-! ### A program -/

/-- A list of commands runs to its end, by induction over the list from every state: the first command appends its
sample and leaves the build, by which the others' samples are those of the same build. -/
theorem run_commands_appends_samples {s : State} {cs : List Command} {rest : List HostAction}
    (h : s.script = cs.map HostAction.command ++ rest) :
    ∃ t : State, core.run cs.length s = .next t ∧ t.script = rest ∧ t.build = s.build ∧
      t.samples = s.samples ++ cs.map (sampleOf s.build) := by
  induction cs generalizing s with
  | nil => exact ⟨s, rfl, h, rfl, by simp⟩
  | cons c cs ih =>
    obtain ⟨u, hstep, hscript, hbuild, hsamples⟩ := step_command_appends_sample h
    obtain ⟨t, hrun, htscript, htbuild, htsamples⟩ := ih hscript
    refine ⟨t, (core_run_succ _ hstep).trans hrun, htscript, htbuild.trans hbuild, ?_⟩
    simp [htsamples, hsamples, hbuild]

/-- Settles O40: `run_commands_appends_samples`, whose samples `sampleOf` are those the statement writes out. -/
theorem programResultIsItsSettledSamples : Obligations.ProgramResultIsItsSettledSamples :=
  fun _ _ _ h => run_commands_appends_samples h

end Sys2Proof.Machine
end

section
/-! PROOFS. The rotations in the document's bit indices (20_memory.md R26, 43_rotate.md R81, R82): index `i` is port bit
`3 - i`, so that the directions of the two index maps change places. -/

namespace Sys2Proof.Machine

theorem docBit_eq_bit (v : U4) (i : Nat) : docBit v i = bit v (3 - i) := rfl

/-- ROL in the document's indices: `3 - ((i + n) mod 4)` is the residue of `(3 - i) - n`. -/
theorem docBit_rol4 (a : U4) (n : Nat) {i : Nat} (h : i < 4) : docBit (rol4 a n) i = docBit a ((i + n) % 4) := by
  rw [docBit_eq_bit, docBit_eq_bit, bit_rol4 _ _ (by omega)]
  congr 1
  omega

/-- ROR in the document's indices: `3 -` the residue of `i + 4 - n` is `((3 - i) + n) mod 4`. -/
theorem docBit_ror4 (a : U4) (n : Nat) {i : Nat} (h : i < 4) :
    docBit (ror4 a n) i = docBit a (((i : Int) + 4 - n) % 4).toNat := by
  rw [docBit_eq_bit, docBit_eq_bit, bit_ror4 _ _ (by omega)]
  congr 1
  omega

/-- Settles O27: the two rotations in the document's indices. -/
theorem rotationsInDocumentIndices : Obligations.RotationsInDocumentIndices :=
  fun a n _ h => ⟨docBit_rol4 a n h, docBit_ror4 a n h⟩

end Sys2Proof.Machine
end

section
/-! PROOFS. Commands and words (30_encoding.md R40 to R42): the fields of an encoded command and of a word, the
command that fields select, and the opcode table's rows. -/

namespace Sys2Proof

/-! ### The fields of an encoded command -/

@[simp] theorem opField_encode (i : Instr) : opField (encode i) = i.op := opField_pack _ _ _
@[simp] theorem aField_encode (i : Instr) : aField (encode i) = i.a := aField_pack _ _ _
@[simp] theorem bField_encode (i : Instr) : bField (encode i) = i.b := bField_pack _ _ _

/-! ### The fields of a word as numbers -/

theorem opField_toNat (c : Command) : (opField c).toNat = c.toNat / 256 := by
  rw [opField, BitVec.extractLsb'_toNat, Nat.shiftRight_eq_div_pow]; omega

theorem aField_toNat (c : Command) : (aField c).toNat = c.toNat / 16 % 16 := by
  rw [aField, BitVec.extractLsb'_toNat, Nat.shiftRight_eq_div_pow]

theorem bField_toNat (c : Command) : (bField c).toNat = c.toNat % 16 := by
  simp [bField, BitVec.extractLsb'_toNat]

/-! ### The numbers that are words -/

theorem commandOfNat_of_lt {n : Nat} (h : n < 4096) : commandOfNat n = .ok (BitVec.ofNat 12 n) := if_pos h

theorem commandOfNat_of_ge {n : Nat} (h : 4096 ≤ n) : commandOfNat n = .error .widerThanCommand := if_neg (by omega)

theorem commandOfNat_eq_ok_iff (n : Nat) : (∃ c, commandOfNat n = .ok c ∧ c.toNat = n) ↔ n < 4096 := by
  refine ⟨fun ⟨c, _, hc⟩ => hc ▸ c.isLt, fun h => ⟨_, commandOfNat_of_lt h, ?_⟩⟩
  rw [BitVec.toNat_ofNat, Nat.mod_eq_of_lt h]

theorem commandOfNat_eq_error_iff (n : Nat) : commandOfNat n = .error .widerThanCommand ↔ 4096 ≤ n := by
  refine ⟨fun h => ?_, commandOfNat_of_ge⟩
  by_contra hlt
  rw [commandOfNat_of_lt (by omega)] at h
  cases h

/-! ### Decoding an encoded command -/

theorem decodeFields_reservedAB {op : U4} (a b : U4) (hlow : 0xA#4 ≤ op) (hhigh : op ≤ 0xB#4) :
    decodeFields op a b = .reservedAB op a b := by
  rcases (by bv_omega : op = 0xA#4 ∨ op = 0xB#4) with rfl | rfl <;> rfl

theorem decodeFields_reservedCF {op : U4} (a b : U4) (hlow : 0xC#4 ≤ op) :
    decodeFields op a b = .reservedCF op a b := by
  rcases (by bv_omega : op = 0xC#4 ∨ op = 0xD#4 ∨ op = 0xE#4 ∨ op = 0xF#4) with rfl | rfl | rfl | rfl <;> rfl

/-- A command of the opcode map is the one its own fields select; the two range rows need their range for it. -/
theorem decodeFields_own_fields {i : Instr} (h : i.wellFormed = true) : decodeFields i.op i.a i.b = i := by
  cases i with
  | reservedAB op a b =>
    obtain ⟨hlow, hhigh⟩ : 0xA#4 ≤ op ∧ op ≤ 0xB#4 := by simpa [Instr.wellFormed] using h
    exact decodeFields_reservedAB a b hlow hhigh
  | reservedCF op a b =>
    have hlow : 0xC#4 ≤ op := by simpa [Instr.wellFormed] using h
    exact decodeFields_reservedCF a b hlow
  | _ => rfl

theorem decode_encode {i : Instr} (h : i.wellFormed = true) : decode (encode i) = i := by
  rw [encode, decode_pack, decodeFields_own_fields h]

/-- Settles O1: the encoded word carries the command's own fields, and they select the command. -/
theorem decodeOfEncodeIsTheCommand : Obligations.DecodeOfEncodeIsTheCommand := fun _ => decode_encode

/-! ### Encoding a decoded word -/

theorem nibble_eq_ofNat (v : U4) : ∃ n < 16, v = BitVec.ofNat 4 n := ⟨v.toNat, v.isLt, by simp⟩

/-- The command that fields select is one of the opcode map and keeps all three fields. -/
theorem decodeFields_keeps_fields (op a b : U4) :
    (decodeFields op a b).wellFormed = true ∧ (decodeFields op a b).op = op ∧
      (decodeFields op a b).a = a ∧ (decodeFields op a b).b = b := by
  obtain ⟨n, hn, rfl⟩ := nibble_eq_ofNat op
  match n, hn with
  | 0, _ | 1, _ | 2, _ | 3, _ | 4, _ | 5, _ | 6, _ | 7, _ | 8, _ | 9, _ | 10, _ | 11, _ | 12, _ | 13, _ | 14, _
  | 15, _ => exact ⟨rfl, rfl, rfl, rfl⟩
  | _ + 16, hn => omega

theorem decode_wellFormed (c : Command) : (decode c).wellFormed = true :=
  (decodeFields_keeps_fields _ _ _).1

theorem encode_decode (c : Command) : encode (decode c) = c := by
  obtain ⟨_, hop, ha, hb⟩ := decodeFields_keeps_fields (opField c) (aField c) (bField c)
  rw [encode, decode, hop, ha, hb, pack_fields]

/-- Settles O2: the decoder is total on the opcode map, and the fields of the command it gives make the word again. -/
theorem everyWordIsOneCommand : Obligations.EveryWordIsOneCommand :=
  fun c => ⟨decode_wellFormed c, encode_decode c⟩

/-! ### The opcode table -/

theorem pack_and_pack (op a b op' a' b' : U4) :
    pack op a b &&& pack op' a' b' = pack (op &&& op') (a &&& a') (b &&& b') :=
  BitVec.and_append.trans (congrArg (· ++ (b &&& b')) BitVec.and_append)

theorem and_opMask (c : Command) : c &&& 0xF00#12 = pack (opField c) 0 0 := by
  have hop : opField c &&& 0xF = opField c := BitVec.and_allOnes
  calc c &&& 0xF00#12
      = pack (opField c) (aField c) (bField c) &&& pack 0xF 0 0 := by rw [pack_fields]; rfl
    _ = pack (opField c) 0 0 := by rw [pack_and_pack, hop]; simp

/-- No row of the table reads an operand bit, so a row covers a word exactly when it covers the word of the same
`op` with both operands 0. -/
theorem covers_pack_opField {r : OpcodeRow} (hr : r ∈ opcodeRows) (c : Command) :
    r.covers c = r.covers (pack (opField c) 0 0) := by
  have hmask : ∀ r ∈ opcodeRows, 0xF00#12 &&& r.mask = r.mask := by decide
  rw [OpcodeRow.covers, OpcodeRow.covers, ← and_opMask, BitVec.and_assoc, hmask r hr]

theorem mnemonic_decodeFields (op a b : U4) :
    (decodeFields op a b).mnemonic = (decodeFields op 0 0).mnemonic := by
  unfold decodeFields
  split <;> rfl

/-- On the words with operands 0, one for each `op`, the table is evaluated. -/
theorem rows_covering_op (op : U4) :
    (opcodeRows.filter fun r => r.covers (pack op 0 0)).map OpcodeRow.mnemonic =
      [(decodeFields op 0 0).mnemonic] := by
  revert op
  decide

/-- Settles O4: neither the rows nor the decoded command's mnemonic depend on the operands, so it is a check for each
of the sixteen values of `op`. -/
theorem exactlyOneOpcodeRowCoversAWord : Obligations.ExactlyOneOpcodeRowCoversAWord := by
  intro c
  rw [List.filter_congr fun r hr => covers_pack_opField hr c, rows_covering_op, decode,
    mnemonic_decodeFields _ (aField c)]

end Sys2Proof
end

section
/-! PROOFS. The outputs of a decoded command (30_encoding.md R42 to R45): `eval` of the word's fields, `ill` exactly on
the reserved ops, and the operand fields that are not read. -/

namespace Sys2Proof.Machine

/-! ### The decoded command -/

/-- Settles O20: the word's fields are `op`, `a` and `b`, and the command they select drives `eval` of them. -/
theorem decodedCommandsComputeEval : Obligations.DecodedCommandsComputeEval := by
  intro s op a b
  rw [decode_pack, exec_decodeFields]
  rfl

/-! ### Reserved ops (R44) -/

theorem reservedOp_iff (build : Build) (op : U4) :
    reservedOp build op = true ↔ 9 ≤ op.toNat ∨ (op = 0x4 ∧ build.hasAnd = false) := by
  simp [reservedOp, BitVec.le_def]

/-- `ill` depends on `op` and the build alone: it is 1 exactly on the reserved ops. -/
theorem eval_ill (build : Build) (op a b : U4) : (eval build op a b).2 = reservedOp build op := by
  obtain ⟨n, hn, rfl⟩ := nibble_eq_ofNat op
  match n, hn with
  | 4, _ => cases h : build.hasAnd <;> simp [eval, reservedOp, h]
  | 0, _ | 1, _ | 2, _ | 3, _ | 5, _ | 6, _ | 7, _ | 8, _ | 9, _ | 10, _ | 11, _ | 12, _ | 13, _ | 14, _ | 15, _ => rfl
  | _ + 16, hn => omega

/-- Every branch of `eval` drives `ill = 0` or `y = 0x00`. -/
theorem eval_y_of_ill {build : Build} {op a b : U4} (h : (eval build op a b).2 = true) :
    (eval build op a b).1 = 0x00 := by
  unfold eval at h ⊢
  split_ifs at h ⊢ <;> rfl

theorem eval_of_reserved {build : Build} {op : U4} (h : reservedOp build op = true) (a b : U4) :
    eval build op a b = (0x00, true) :=
  have hill : (eval build op a b).2 = true := (eval_ill build op a b).trans h
  Prod.ext (eval_y_of_ill hill) hill

/-- Settles O17: the command drives `eval` of the fields, whose `ill` is 1 on the reserved ops alone. -/
theorem illegalExactlyOnReservedOps : Obligations.IllegalExactlyOnReservedOps := by
  intro s op a b
  refine ⟨_, decodedCommandsComputeEval s op a b, ?_, eval_y_of_ill⟩
  rw [← reservedOp_iff, ← eval_ill]

/-! ### Operand fields that are not read (R45) -/

theorem amount_eq (b : U4) : amount b = b.toNat % 4 := by
  simp [amount, BitVec.extractLsb'_toNat]

theorem lowNibble_byteOperand (a b : U4) : lowNibble (byteOperand a b) = b :=
  BitVec.extractLsb'_append_eq_right

theorem exec_trunc (a b : U4) (s : State) : exec (.trunc a b) s = .next (s.driveNibble b) := by
  rw [exec, execTrunc, lowNibble_byteOperand]

/-- Settles O21: ZEXT is not given `b`, a rotation reads its amount, TRUNC gives `b`, and `eval` of a reserved op is
constant. -/
theorem unreadFieldsDoNotMatter : Obligations.UnreadFieldsDoNotMatter := by
  intro s op a b a' b'
  refine ⟨rfl, fun hb => ?_, ?_, fun hop => ?_⟩
  · have hamount : amount b = amount b' := by rw [amount_eq, amount_eq, hb]
    exact ⟨by simp only [exec, execRol, hamount], by simp only [exec, execRor, hamount]⟩
  · rw [exec_trunc, exec_trunc]
  · rw [decodedCommandsComputeEval, decodedCommandsComputeEval, eval_of_reserved hop, eval_of_reserved hop]

end Sys2Proof.Machine
end

section
/-! PROOFS. The steps that bring a word to the block (30_encoding.md R40, R46; 70_reset_and_hazards.md R112, R117): an
issue drives the word's fields, and a transaction runs the command the word was encoded from. -/

namespace Sys2Proof.Machine

theorem step_of_issue {s : State} {c : Command} {rest : List HostAction} (h : s.script = .issue c :: rest) :
    step s = .next ((s.withScript rest).present c) := by
  simp [step, h, act]

/-- Settles O3: after an issue the ports hold the word's fields, and `commandOfNat` accepts the numbers below 4096. -/
theorem commandWordDrivesThePorts : Obligations.CommandWordDrivesThePorts := by
  refine ⟨fun s c rest h => ⟨_, step_of_issue h, ?_⟩, commandOfNat_eq_ok_iff, commandOfNat_eq_error_iff⟩
  simp only [State.present_op, State.present_a, State.present_b, State.present_driven, opField_toNat, aField_toNat,
    bField_toNat, and_self]

/-- Settles O30: the ports hold the fields of the encoded command, which are its own, and decoding gives it back. -/
theorem stepRunsTheDecodedCommand : Obligations.StepRunsTheDecodedCommand := by
  intro s i rest hi h
  have hstep : step s = onNext (exec i ((s.withScript rest).present (encode i)).settleNow) State.takeSample := by
    rw [step_of_command h, runCommand, decode_encode hi]
  exact ⟨_, rfl, by simp, by simp, by simp, by simp, by simp, by simp, by simp, by simp, hstep⟩

end Sys2Proof.Machine
end

section
/-! PROOFS. The assembler (30_encoding.md R47 to R49): which commands it accepts, what each operand and each mnemonic
becomes, and the substitution of kept names. -/

namespace Sys2Proof

/-- The nine mnemonics of R42, which `expand` leaves as they are. -/
def Mnem.isCore : Mnem → Bool
  | .add | .sub | .xor | .or | .and | .rol | .ror | .zext | .trunc => true
  | _ => false

theorem Source.wellFormed_iff (c : Source) :
    c.wellFormed = true ↔ c.operands.length = c.mnem.kinds.length ∧
      (List.zipWith SrcOperand.fits c.mnem.kinds c.operands).all id = true := by
  simp [Source.wellFormed]

end Sys2Proof

namespace Sys2Proof.Machine

/-! ### Numbers in each position (R49) -/

theorem operandValue_lit_of_fits {k : OperandKind} {n : Nat} (env : Env) (h : k.fits n = true) :
    operandValue env k (.lit n) = .ok n := by
  cases k with
  | nibble => exact if_pos (of_decide_eq_true h)
  | amount => rfl
  | byte => exact if_pos (of_decide_eq_true h)

theorem operandValue_nibble {n : Nat} (env : Env) (h : n < 16) : operandValue env .nibble (.lit n) = .ok n :=
  if_pos h

theorem operandValue_nibble_refused {n : Nat} (env : Env) (h : 16 ≤ n) :
    operandValue env .nibble (.lit n) = .error (.nibbleOutOfRange n) := if_neg (Nat.not_lt.2 h)

theorem operandValue_byte {n : Nat} (env : Env) (h : n < 256) : operandValue env .byte (.lit n) = .ok n :=
  if_pos h

theorem operandValue_byte_refused {n : Nat} (env : Env) (h : 256 ≤ n) :
    operandValue env .byte (.lit n) = .error (.byteOutOfRange n) := if_neg (Nat.not_lt.2 h)

theorem operandValue_amount (env : Env) (n : Nat) : operandValue env .amount (.lit n) = .ok n := rfl

/-! ### Which operands have values -/

/-- The operands have values exactly when each has one in its own position. -/
theorem operandValues_ok_iff (env : Env) (ks : List OperandKind) (os : List SrcOperand) :
    (∃ l, operandValues env ks os = .ok l) ↔ List.Forall₂ (fun k o => ∃ n, operandValue env k o = .ok n) ks os := by
  induction ks generalizing os with
  | nil => cases os <;> simp [operandValues]
  | cons k ks ih =>
    cases os with
    | nil => simp [operandValues]
    | cons o os =>
      rw [List.forall₂_cons, ← ih]
      cases h₁ : operandValue env k o <;> cases h₂ : operandValues env ks os <;> simp [operandValues, h₁, h₂]

/-- Each operand has a value in its position exactly when the operands are as many as the positions, they fit, and the
names among them are bound. -/
theorem forall₂_operandValue_iff (env : Env) (ks : List OperandKind) (os : List SrcOperand) :
    List.Forall₂ (fun k o => ∃ n, operandValue env k o = .ok n) ks os ↔
      (os.length = ks.length ∧ (List.zipWith SrcOperand.fits ks os).all id = true) ∧
        ∀ id, SrcOperand.name id ∈ os → ∃ v, env.find id = some v := by
  induction ks generalizing os with
  | nil => cases os <;> simp
  | cons k ks ih =>
    cases os with
    | nil => simp
    | cons o os =>
      rw [List.forall₂_cons, ih, operandValue_ok_iff]
      simp only [List.length_cons, Nat.add_right_cancel_iff, List.zipWith_cons_cons, List.all_cons, id_eq,
        Bool.and_eq_true, List.mem_cons, or_imp, forall_and, eq_comm (b := o)]
      tauto

/-! ### The core mnemonics -/

theorem expand_of_isCore {m : Mnem} (h : m.isCore = true) (os : List SrcOperand) : expand ⟨m, os⟩ = ⟨m, os⟩ := by
  cases m with
  | add | sub | xor | or | and | rol | ror | zext | trunc => rfl
  | _ => cases h

/-- A core mnemonic gives a command when it has a value for each of its positions. -/
theorem encodeValues_ok {m : Mnem} {l : List Nat} (h : m.isCore = true) (hl : l.length = m.kinds.length) :
    ∃ i, encodeValues m l = .ok i := by
  cases m with
  | add | sub | xor | or | and | rol | ror =>
    obtain ⟨a, b, rfl⟩ := List.length_eq_two.1 hl
    exact ⟨_, rfl⟩
  | zext | trunc =>
    obtain ⟨a, rfl⟩ := List.length_eq_one_iff.1 hl
    exact ⟨_, rfl⟩
  | _ => cases h

/-- Every command that `encodeValues` gives is one of the nine legal rows of the opcode map. -/
theorem encodeValues_wellFormed {m : Mnem} {l : List Nat} {i : Instr} (h : encodeValues m l = .ok i) :
    i.wellFormed = true := by
  unfold encodeValues at h
  split at h <;> cases h <;> rfl

/-- Expansion does not change whether the operands have values: where it adds a number to a single nibble, the number
is one too. -/
theorem expand_operandValues_ok_iff (env : Env) (c : Source) :
    (∃ l, operandValues env (expand c).mnem.kinds (expand c).operands = .ok l) ↔
      ∃ l, operandValues env c.mnem.kinds c.operands = .ok l := by
  obtain ⟨m, os⟩ := c
  cases m with
  | not | neg | inc | dec =>
    match os with
    | [a] => simp [expand, operandValues_ok_iff, Mnem.kinds, operandValue_nibble]
    | [] | _ :: _ :: _ => rfl
  | _ => rfl

/-- Expansion makes a core mnemonic of every other, since it leaves alone only what has too few or too many operands. -/
theorem expand_isCore {c : Source} (h : c.operands.length = c.mnem.kinds.length) : (expand c).mnem.isCore = true := by
  obtain ⟨m, os⟩ := c
  cases m with
  | not | neg | inc | dec =>
    obtain ⟨a, rfl⟩ := List.length_eq_one_iff.1 h
    rfl
  | _ => rfl

/-! ### Which source commands assemble -/

/-- A source command assembles exactly when its own operands, before expansion, have values: as many values as a core
mnemonic has positions are encoded. -/
theorem assemble_ok_iff (env : Env) (c : Source) :
    (∃ i, assemble env c = .ok i) ↔ ∃ l, operandValues env c.mnem.kinds c.operands = .ok l := by
  constructor
  · rintro ⟨i, hi⟩
    rw [← expand_operandValues_ok_iff]
    cases h : operandValues env (expand c).mnem.kinds (expand c).operands with
    | error r => simp [assemble, h] at hi
    | ok l => exact ⟨l, rfl⟩
  · intro hc
    obtain ⟨l, hl⟩ := (expand_operandValues_ok_iff env c).2 hc
    obtain ⟨l₀, hl₀⟩ := hc
    simpa [assemble, hl] using encodeValues_ok (expand_isCore (operandValues_length hl₀).1) (operandValues_length hl).2

theorem assemble_wellFormed {env : Env} {c : Source} {i : Instr} (h : assemble env c = .ok i) :
    i.wellFormed = true := by
  unfold assemble at h
  split at h
  · cases h
  · exact encodeValues_wellFormed h

/-- Settles O47: a source command assembles exactly when its operands have values, and by `forall₂_operandValue_iff`
that is the count, the ranges and the names. -/
theorem assemblerAcceptsExactlyTheWellFormed : Obligations.AssemblerAcceptsExactlyTheWellFormed := by
  refine ⟨fun env c => ?_, fun env c i => assemble_wellFormed⟩
  rw [assemble_ok_iff, operandValues_ok_iff, forall₂_operandValue_iff, Source.wellFormed_iff]

/-! ### What a core mnemonic assembles to -/

theorem assemble_of_isCore {m : Mnem} (h : m.isCore = true) (env : Env) (os : List SrcOperand) :
    assemble env ⟨m, os⟩ = (operandValues env m.kinds os).bind (encodeValues m) := by
  simp only [assemble, expand_of_isCore h]
  cases operandValues env m.kinds os <;> rfl

theorem assemble_one {env : Env} {m : Mnem} {k : OperandKind} {x : SrcOperand} {a : Nat} (hm : m.isCore = true)
    (hk : m.kinds = [k]) (hx : operandValue env k x = .ok a) : assemble env ⟨m, [x]⟩ = encodeValues m [a] := by
  rw [assemble_of_isCore hm, hk]
  simp [operandValues, hx, Except.bind]

theorem assemble_two {env : Env} {m : Mnem} {j k : OperandKind} {x y : SrcOperand} {a b : Nat} (hm : m.isCore = true)
    (hk : m.kinds = [j, k]) (hx : operandValue env j x = .ok a) (hy : operandValue env k y = .ok b) :
    assemble env ⟨m, [x, y]⟩ = encodeValues m [a, b] := by
  rw [assemble_of_isCore hm, hk]
  simp [operandValues, hx, hy, Except.bind]

/-- The first operand without a value gives the reason. -/
theorem assemble_first_refused {env : Env} {m : Mnem} {k : OperandKind} {ks : List OperandKind} {x : SrcOperand}
    {os : List SrcOperand} {r : AsmReject} (hm : m.isCore = true) (hk : m.kinds = k :: ks)
    (hx : operandValue env k x = .error r) : assemble env ⟨m, x :: os⟩ = .error r := by
  rw [assemble_of_isCore hm, hk]
  simp [operandValues, hx, Except.bind]

theorem assemble_second_refused {env : Env} {m : Mnem} {j k : OperandKind} {ks : List OperandKind} {x y : SrcOperand}
    {os : List SrcOperand} {a : Nat} {r : AsmReject} (hm : m.isCore = true) (hk : m.kinds = j :: k :: ks)
    (hx : operandValue env j x = .ok a) (hy : operandValue env k y = .error r) :
    assemble env ⟨m, x :: y :: os⟩ = .error r := by
  rw [assemble_of_isCore hm, hk]
  simp [operandValues, hx, hy, Except.bind]

/-! ### Operands in and out of range (R49) -/

theorem bits4_mod_sixteen (n : Nat) : bits4 (n % 16) = bits4 n := by
  apply BitVec.eq_of_toNat_eq
  simp [bits4]

/-- The two nibbles that TRUNC's byte is encoded as. -/
theorem encodeValues_trunc (x : Nat) : encodeValues .trunc [x] = .ok (.trunc (bits4 (x / 16)) (bits4 (x % 16))) := by
  rw [bits4_mod_sixteen]; rfl

theorem gate_isCore_kinds {m : Mnem} (h : m ∈ [Mnem.add, .sub, .xor, .or, .and]) :
    m.isCore = true ∧ m.kinds = [.nibble, .nibble] := by
  revert m
  decide

/-- Settles O46: each clause by the values of its operands, or by the first operand that has none. -/
theorem assemblerEncodesOperandsInRange : Obligations.AssemblerEncodesOperandsInRange := by
  refine ⟨fun env a b ha hb => ?_, fun env a n ha => ?_, fun env x hx => ?_, fun env m hm a b => ?_,
    fun env a n ha => ?_, fun env x hx => ?_⟩
  · have va := operandValue_nibble env ha
    have vb := operandValue_nibble env hb
    exact ⟨assemble_two rfl rfl va vb, assemble_two rfl rfl va vb, assemble_two rfl rfl va vb,
      assemble_two rfl rfl va vb, assemble_two rfl rfl va vb⟩
  · have va := operandValue_nibble env ha
    have vn := operandValue_amount env n
    exact ⟨assemble_two rfl rfl va vn, assemble_two rfl rfl va vn, assemble_one rfl rfl va⟩
  · exact (assemble_one rfl rfl (operandValue_byte env hx)).trans (encodeValues_trunc x)
  · obtain ⟨hcore, hkinds⟩ := gate_isCore_kinds hm
    exact ⟨fun ha => assemble_first_refused hcore hkinds (operandValue_nibble_refused env ha),
      fun ha hb => assemble_second_refused hcore hkinds (operandValue_nibble env ha)
        (operandValue_nibble_refused env hb)⟩
  · have ra := operandValue_nibble_refused env ha
    exact ⟨assemble_first_refused rfl rfl ra, assemble_first_refused rfl rfl ra, assemble_first_refused rfl rfl ra⟩
  · exact assemble_first_refused rfl rfl (operandValue_byte_refused env hx)

/-! ### Pseudo-instructions (R48) -/

theorem assemble_eq_of_expand_eq {c d : Source} (h : expand c = expand d) (env : Env) :
    assemble env c = assemble env d := by
  rw [assemble, assemble, h]

/-- Settles O48: a pseudo-instruction and its expansion expand to the same source command, and the assembler reads
nothing else. -/
theorem pseudoInstructionsExpand : Obligations.PseudoInstructionsExpand := fun env _ _ =>
  have same {c d : Source} (h : expand c = expand d) : assemble env c = assemble env d :=
    assemble_eq_of_expand_eq h env
  ⟨same rfl, same rfl, same rfl, same rfl, same rfl, same rfl, same rfl, same rfl⟩

/-! ### Kept names (R47) -/

/-- The core mnemonics of two operands take a nibble first. -/
theorem twoOperand_isCore_kinds {m : Mnem} (h : m ∈ [Mnem.add, .sub, .xor, .or, .and, .rol, .ror]) :
    m.isCore = true ∧ ∃ k, m.kinds = [.nibble, k] := by
  simp only [List.mem_cons, List.not_mem_nil, or_false] at h
  rcases h with rfl | rfl | rfl | rfl | rfl | rfl | rfl <;> exact ⟨rfl, _, rfl⟩

theorem fits_of_lt_sixteen {n : Nat} (k : OperandKind) (h : n < 16) : k.fits n = true := by
  cases k with
  | nibble => exact decide_eq_true h
  | amount => rfl
  | byte => exact decide_eq_true (by omega)

theorem keptValue_mod_sixteen (k : OperandKind) (v : Byte) : keptValue k v % 16 = v.toNat % 16 := by
  cases k <;> simp [keptValue]

/-- Only the low nibble of a second operand is encoded, of an amount its two low bits. -/
theorem encodeValues_second_mod_sixteen (m : Mnem) (a b : Nat) :
    encodeValues m [a, b % 16] = encodeValues m [a, b] := by
  cases m with
  | add | sub | xor | or | and => simp only [encodeValues, bits4_mod_sixteen]
  | rol | ror => simp only [encodeValues, Nat.mod_mod_of_dvd b (by decide : 4 ∣ 16)]
  | _ => rfl

/-- A bound name assembles as its low nibble, beside a number, in either place. -/
theorem assemble_name_beside_number {env : Env} {p : Name} {v : Byte} (hp : env.find p = some v) {m : Mnem}
    (hm : m ∈ [Mnem.add, .sub, .xor, .or, .and, .rol, .ror]) {n : Nat} (hn : n < 16) :
    assemble env ⟨m, [.name p, .lit n]⟩ = assemble env ⟨m, [.lit (v.toNat % 16), .lit n]⟩ ∧
      assemble env ⟨m, [.lit n, .name p]⟩ = assemble env ⟨m, [.lit n, .lit (v.toNat % 16)]⟩ := by
  obtain ⟨hcore, k, hkinds⟩ := twoOperand_isCore_kinds hm
  have hv : v.toNat % 16 < 16 := Nat.mod_lt _ (by decide)
  have lit {j : OperandKind} {a : Nat} (ha : a < 16) : operandValue env j (.lit a) = .ok a :=
    operandValue_lit_of_fits env (fits_of_lt_sixteen j ha)
  have name (j : OperandKind) := operandValue_name hp j
  constructor
  · rw [assemble_two hcore hkinds (name _) (lit hn), assemble_two hcore hkinds (lit hv) (lit hn), keptValue]
  · rw [assemble_two hcore hkinds (lit hn) (name k), assemble_two hcore hkinds (lit hn) (lit hv),
      ← encodeValues_second_mod_sixteen, keptValue_mod_sixteen]

/-- Settles O51: a bound name has its kept value in each position, an unbound one is the first operand without a value,
and the latest binding of a name is found first. -/
theorem keptNamesAreSubstituted : Obligations.KeptNamesAreSubstituted := by
  refine ⟨fun env p q v w hp hq => ?_, fun env p v hp m hm n hn => assemble_name_beside_number hp hm hn,
    fun env p hp => ?_, fun env p q v => ?_⟩
  · have vp := operandValue_name hp .nibble
    have vq := operandValue_name hq .nibble
    have aq := operandValue_name hq .amount
    exact ⟨assemble_two rfl rfl vp vq, assemble_two rfl rfl vp vq, assemble_two rfl rfl vp vq,
      assemble_two rfl rfl vp vq, assemble_two rfl rfl vp vq, assemble_two rfl rfl vp aq, assemble_two rfl rfl vp aq,
      assemble_one rfl rfl vp,
      (assemble_one rfl rfl (operandValue_name hp .byte)).trans (encodeValues_trunc v.toNat)⟩
  · have rp (k : OperandKind) := operandValue_unbound hp k
    refine ⟨fun m hm o => ?_, fun m hm n hn => ?_, assemble_first_refused rfl rfl (rp _),
      assemble_first_refused rfl rfl (rp _)⟩ <;>
      obtain ⟨hcore, k, hkinds⟩ := twoOperand_isCore_kinds hm
    · exact assemble_first_refused hcore hkinds (rp _)
    · exact assemble_second_refused hcore hkinds (operandValue_nibble env hn) (rp k)
  · exact ⟨Env.find_nil p, Env.find_cons_self p v env, fun h => Env.find_cons_of_ne h.symm v env⟩

end Sys2Proof.Machine
end

section
/-! PROOFS. Lines of text (30_encoding.md R47): mnemonics in either case, and the tokens of a line's words. -/

namespace Sys2Proof.Machine

/-! ### Mnemonics -/

/-- A character has a capital as its upper case exactly when it is the capital or its small letter. -/
theorem upper_eq_iff {l : Char} (h : 65 ≤ l.toNat ∧ l.toNat ≤ 90) (c : Char) :
    upper c = l ↔ c = l ∨ c = Char.ofNat (l.toNat + 32) := by
  rw [eq_ofNat_iff c (by omega), ← Char.toNat_inj, ← Char.toNat_inj, toNat_upper]
  split <;> omega

/-- A word has a capital word as its upper case exactly when each letter is that of it, capital or small. -/
theorem map_upper_eq_iff {ls : List Char} (h : ∀ l ∈ ls, 65 ≤ l.toNat ∧ l.toNat ≤ 90) (cs : List Char) :
    cs.map upper = ls ↔ List.Forall₂ (fun c l => c = l ∨ c = Char.ofNat (l.toNat + 32)) cs ls := by
  induction ls generalizing cs with
  | nil => cases cs <;> simp
  | cons l ls ih =>
    obtain ⟨hl, hls⟩ := List.forall_mem_cons.1 h
    cases cs with
    | nil => simp
    | cons c cs => rw [List.map_cons, List.cons.injEq, List.forall₂_cons, upper_eq_iff hl, ih hls]

theorem spelledMnemonics_capital :
    ∀ p ∈ spelledMnemonics, ∀ l ∈ p.1, 65 ≤ l.toNat ∧ l.toNat ≤ 90 := by
  simp [spelledMnemonics]

/-- Each word of the table is found, since no word stands in it twice. -/
theorem lookup_spelledMnemonics : ∀ p ∈ spelledMnemonics, mnemonics.lookup p.1 = some p.2 := by decide

theorem mnemonics_eq_spelledMnemonics : mnemonics = spelledMnemonics := rfl

theorem mnemOf_eq_ok_iff (cs : List Char) (m : Mnem) : mnemOf cs = .ok m ↔ (cs.map upper, m) ∈ spelledMnemonics := by
  have hlookup : mnemOf cs = .ok m ↔ mnemonics.lookup (cs.map upper) = some m := by
    cases h : mnemonics.lookup (cs.map upper) <;> simp [mnemOf, h]
  rw [hlookup]
  refine ⟨fun h => ?_, fun h => lookup_spelledMnemonics _ h⟩
  obtain ⟨l₁, l₂, htable, _⟩ := List.lookup_eq_some_iff.1 h
  rw [← mnemonics_eq_spelledMnemonics, htable]
  simp

/-- Settles O53: a word is a mnemonic when its upper case stands in the table of capital words. -/
theorem mnemonicsAreReadInEitherCase : Obligations.MnemonicsAreReadInEitherCase := by
  refine ⟨fun p hp cs hcs => ?_, fun cs m h => ?_⟩
  · rw [mnemOf_eq_ok_iff, (map_upper_eq_iff (spelledMnemonics_capital p hp) cs).2 hcs]
    exact hp
  · have hmem := (mnemOf_eq_ok_iff cs m).1 h
    exact ⟨_, hmem, rfl, (map_upper_eq_iff (spelledMnemonics_capital _ hmem) cs).1 rfl⟩

/-! ### The tokens of a line -/

theorem beforeComment_of_notMem {cs : List Char} (h : ';' ∉ cs) : beforeComment cs = cs := by
  simpa using beforeComment_append (fun _ hc => ne_of_mem_of_not_mem hc h) []

theorem comment_notMem_word {cs : List Char} (h : isWord cs) : ';' ∉ cs := fun hc => h.2 _ hc (by simp)

/-- A word is gathered whole, whatever follows it. -/
theorem tokens_word_append {cs : List Char} (h : isWord cs) (rest : List Char) :
    tokens [] (cs ++ rest) = tokens cs.reverse rest := by
  have hsep : ∀ c ∈ cs, c ≠ ' ' ∧ c ≠ '\t' ∧ c ≠ ',' ∧ c ≠ '=' := by
    intro c hc
    have hnot := h.2 c hc
    simp only [List.mem_cons, not_or] at hnot
    tauto
  rw [tokens_word hsep, List.append_nil]

theorem tokens_word_end {cs : List Char} (h : isWord cs) : tokens [] cs = [.word cs] := by
  have hword := tokens_word_append h []
  rwa [List.append_nil, tokens, closeWord_reverse h.1] at hword

theorem tokens_word_space {cs : List Char} (h : isWord cs) (rest : List Char) :
    tokens [] (cs ++ ' ' :: rest) = .word cs :: tokens [] rest :=
  (tokens_word_append h _).trans (closeWord_reverse h.1 _)

theorem tokens_word_comma {cs : List Char} (h : isWord cs) (rest : List Char) :
    tokens [] (cs ++ ',' :: rest) = .word cs :: .comma :: tokens [] rest :=
  (tokens_word_append h _).trans (closeWord_reverse h.1 _)

theorem tokens_space (rest : List Char) : tokens [] (' ' :: rest) = tokens [] rest := rfl

theorem tokens_equals (rest : List Char) : tokens [] ('=' :: rest) = .equals :: tokens [] rest := rfl

theorem tokens_oneOperand {m x : List Char} (hm : isWord m) (hx : isWord x) :
    tokens [] (m ++ ' ' :: x) = [.word m, .word x] := by
  rw [tokens_word_space hm, tokens_word_end hx]

theorem tokens_twoOperands {m x y : List Char} (hm : isWord m) (hx : isWord x) (hy : isWord y) :
    tokens [] (m ++ ' ' :: (x ++ ',' :: ' ' :: y)) = [.word m, .word x, .comma, .word y] := by
  rw [tokens_word_space hm, tokens_word_comma hx, tokens_space, tokens_word_end hy]

theorem tokens_destination {n : List Char} (hn : isWord n) (rest : List Char) :
    tokens [] (n ++ ' ' :: '=' :: ' ' :: rest) = .word n :: .equals :: tokens [] rest := by
  rw [tokens_word_space hn, tokens_equals, tokens_space]

/-! ### Lines -/

/-- The text, free of comments, is that of the command `c`: its first token is a word and its second no `=`. -/
structure WritesCommand (cs : List Char) (c : Source) : Prop where
  no_comment : ';' ∉ cs
  source : sourceOf (tokens [] cs) = .ok c
  plain : ∃ m x ts, tokens [] cs = .word m :: .word x :: ts

theorem writesCommand_oneOperand {m x : List Char} {mn : Mnem} {o : SrcOperand} (hm : isWord m) (hx : isWord x)
    (hmn : mnemOf m = .ok mn) (ho : operandOf x = .ok o) : WritesCommand (m ++ ' ' :: x) ⟨mn, [o]⟩ where
  no_comment := by simp [comment_notMem_word hm, comment_notMem_word hx]
  source := by simp [tokens_oneOperand hm hx, sourceOf, operandsOf, hmn, ho]
  plain := ⟨_, _, _, tokens_oneOperand hm hx⟩

theorem writesCommand_twoOperands {m x y : List Char} {mn : Mnem} {o p : SrcOperand} (hm : isWord m) (hx : isWord x)
    (hy : isWord y) (hmn : mnemOf m = .ok mn) (ho : operandOf x = .ok o) (hp : operandOf y = .ok p) :
    WritesCommand (m ++ ' ' :: (x ++ ',' :: ' ' :: y)) ⟨mn, [o, p]⟩ where
  no_comment := by simp [comment_notMem_word hm, comment_notMem_word hx, comment_notMem_word hy]
  source := by simp [tokens_twoOperands hm hx hy, sourceOf, operandsOf, hmn, ho, hp]
  plain := ⟨_, _, _, tokens_twoOperands hm hx hy⟩

/-- A command alone on its line is read without a name. -/
theorem WritesCommand.lineOf_plain {cs : List Char} {c : Source} (h : WritesCommand cs c) :
    lineOf cs = .ok (some ⟨none, c⟩) := by
  obtain ⟨m, x, ts, hts⟩ := h.plain
  have hsource := h.source
  rw [hts] at hsource
  simp [lineOf, beforeComment_of_notMem h.no_comment, hts, hsource]

/-- A command after `n = ` is read with the name `n`, or refused where `n` is none. -/
theorem WritesCommand.lineOf_destination {cs n : List Char} {c : Source} (h : WritesCommand cs c) (hn : isWord n) :
    lineOf (n ++ ' ' :: '=' :: ' ' :: cs) = if isName n then .ok (some ⟨some n, c⟩) else .error (.badName n) := by
  have hcomment : ';' ∉ n ++ ' ' :: '=' :: ' ' :: cs := by simp [comment_notMem_word hn, h.no_comment]
  simp [lineOf, beforeComment_of_notMem hcomment, tokens_destination hn, h.source]

theorem lineOf_comment (cs comment : List Char) : lineOf (cs ++ ';' :: comment) = lineOf cs := by
  rw [lineOf, lineOf, beforeComment_comment]

/-- Settles O54: both forms of command write their source command, and a comment is cut off before the tokens are
read. -/
theorem linesReadAsTheirParts : Obligations.LinesReadAsTheirParts := by
  refine ⟨fun m x y mn o p hm hx hy hmn ho hp => ?_, lineOf_comment, lineOf_comment [], rfl⟩
  have two := writesCommand_twoOperands hm hx hy hmn ho hp
  have one := writesCommand_oneOperand hm hx hmn ho
  refine ⟨two.lineOf_plain, one.lineOf_plain, fun n hn => ⟨fun hname => ?_, fun hname => ?_⟩⟩ <;>
    simp [two.lineOf_destination hn, one.lineOf_destination hn, hname]

end Sys2Proof.Machine
end

section
/-! PROOFS. Lines of a host program (30_encoding.md R47, 70_reset_and_hazards.md R117): the command a line assembles to
is run in one step, and its result is kept. -/

namespace Sys2Proof.Machine

/-- A step that runs an encoded command shows `eval` of the command's own fields and appends that sample. -/
theorem step_encoded_command {s : State} {i : Instr} {rest : List HostAction}
    (h : s.script = .command (encode i) :: rest) :
    ∃ t, step s = .next t ∧ (t.y, t.ill) = eval s.build i.op i.a i.b ∧ t.script = rest ∧
      t.samples = s.samples ++ [⟨t.y, t.ill⟩] :=
  ⟨_, (step_of_command h).trans (runCommand_eq_record _ _), by simp⟩

/-- A line that assembles to a command whose step goes on gives that step's state, with the outputs kept. -/
theorem runLine_of_step {l : HostLine} {env : Env} {s t : State} {i : Instr} (hi : assemble env l.source = .ok i)
    (ht : step (s.withScript (.command (encode i) :: s.script)) = .next t) :
    runLine l env s = .ok (keep l.dest ⟨t.y, t.ill⟩ env, t) := by
  simp [runLine, hi, ht]

/-- Settles O50: the step shows and samples `eval` of the command, and `keep` reads the same `y` and `ill`. -/
theorem hostLinesRunAndKeepResults : Obligations.HostLinesRunAndKeepResults := by
  intro l env s i hi
  obtain ⟨t, hstep, heval, hscript, hsamples⟩ :=
    step_encoded_command (State.withScript_script s (.command (encode i) :: s.script))
  refine ⟨t, t.y, t.ill, heval, rfl, rfl, hscript, hsamples, ?_⟩
  rw [runLine_of_step hi hstep]
  cases l.dest <;> cases t.ill <;> rfl

end Sys2Proof.Machine
end

section
/-! PROOFS. The conversions (40_convert.md R50 to R53): a nibble and its zero-extended byte, the low nibble of a byte,
and the two commands as the host issues them. -/

namespace Sys2Proof.Machine

/-! ### A nibble and its byte -/

theorem toNat_zext8 (v : U4) : (zext8 v).toNat = v.toNat :=
  (BitVec.toNat_append 0#4 v).trans (by simp)

theorem zext8_eq_ofNat (v : U4) : zext8 v = BitVec.ofNat 8 v.toNat := by
  rw [← toNat_zext8, BitVec.ofNat_toNat, BitVec.setWidth_eq]

/-- A zero-extended nibble is the byte whose high nibble is 0 (R8, R20). -/
theorem lowNibble_zext8 (v : U4) : lowNibble (zext8 v) = v := lowNibble_byteOperand 0 v

theorem toNat_lowNibble (x : Byte) : (lowNibble x).toNat = x.toNat % 16 := by
  rw [lowNibble, BitVec.extractLsb'_toNat, Nat.shiftRight_zero]

theorem lowNibble_eq_iff (x x' : Byte) : lowNibble x = lowNibble x' ↔ x.toNat % 16 = x'.toNat % 16 := by
  rw [← BitVec.toNat_inj, toNat_lowNibble, toNat_lowNibble]

/-- The value of a nibble is the sum of the weights of its set bits (R8). -/
theorem toNat_eq_sum_weights (a : U4) :
    a.toNat = (a.getLsbD 0).toNat + 2 * (a.getLsbD 1).toNat + 4 * (a.getLsbD 2).toNat + 8 * (a.getLsbD 3).toNat := by
  have hlt := a.isLt
  simp only [BitVec.getLsbD, Nat.toNat_testBit]
  omega

/-- Distinct nibbles are told apart by the byte they drive, since its low nibble is the nibble again. -/
theorem State.driveNibble_inj (s : State) (r r' : U4) : s.driveNibble r = s.driveNibble r' ↔ r = r' := by
  refine ⟨fun h => ?_, congrArg s.driveNibble⟩
  have hy : zext8 r = zext8 r' := congrArg State.y h
  rw [← lowNibble_zext8 r, hy, lowNibble_zext8]

/-! ### The two commands (R50, R51) -/

/-- Settles O14: ZEXT is not given `b`, and the byte it drives has the value of the nibble. -/
theorem zextExtendsTheNibble : Obligations.ZextExtendsTheNibble :=
  fun _ a b => ⟨decode_pack 0x7 a b, rfl, (toNat_zext8 a).trans (toNat_eq_sum_weights a)⟩

/-- Settles O15: TRUNC drives `b`, which is the residue of `16 * a + b`. -/
theorem truncKeepsTheLowNibble : Obligations.TruncKeepsTheLowNibble := by
  intro s a b
  have hmod : (16 * a.toNat + b.toNat) % 16 = b.toNat := by rw [Nat.mul_add_mod, Nat.mod_eq_of_lt b.isLt]
  refine ⟨decode_pack 0x8 a b, ?_⟩
  rw [exec_trunc, hmod, ← zext8_eq_ofNat]
  rfl

/-! ### As the host issues them (R52) -/

theorem exec_toNativeByte (v : U4) (s : State) : exec (toNativeByte v) s = .next (s.driveNibble v) := rfl

theorem exec_fromNativeByte (n : Byte) (s : State) :
    exec (fromNativeByte n) s = .next (s.driveNibble (lowNibble n)) := exec_trunc _ _ s

theorem fromNativeByte_eq_trunc (n : Byte) :
    fromNativeByte n = .trunc (BitVec.ofNat 4 (n.toNat / 16)) (BitVec.ofNat 4 (n.toNat % 16)) := by
  have hhigh : n.extractLsb' 4 4 = BitVec.ofNat 4 (n.toNat / 16) := by
    rw [BitVec.extractLsb', Nat.shiftRight_eq_div_pow]
  have hlow : n.extractLsb' 0 4 = BitVec.ofNat 4 (n.toNat % 16) := (bits4_mod_sixteen n.toNat).symm
  rw [fromNativeByte, hhigh, hlow]

/-- Settles O49: `from_native_byte` drives the low nibble of the byte and `to_native_byte` the nibble; which command
`from_bytes` issues is read off its two equations. -/
theorem softwareConversionsIssueTheCommands : Obligations.SoftwareConversionsIssueTheCommands := by
  intro s n v more
  refine ⟨?_, ?_, fromNativeByte_eq_trunc n, rfl, rfl, rfl⟩
  · rw [exec_fromNativeByte, ← toNat_lowNibble, ← zext8_eq_ofNat]
    rfl
  · rw [exec_toNativeByte, ← zext8_eq_ofNat]
    rfl

/-! ### The laws (R53) -/

/-- Settles O29: TRUNC after ZEXT gives the low nibble of a zero-extended nibble, ZEXT after TRUNC the value of a low
nibble, and TRUNC of two bytes is equal exactly when their low nibbles are. -/
theorem conversionLaws : Obligations.ConversionLaws := by
  refine ⟨fun s v => ⟨_, _, exec_toNativeByte v s, exec_fromNativeByte _ _, ?_⟩,
    fun s x => ⟨_, _, exec_fromNativeByte x s, exec_toNativeByte _ _, ?_⟩, fun s x x' => ?_⟩
  · simp only [State.driveNibble_y, lowNibble_zext8]
  · rw [State.driveNibble_y, State.driveNibble_y, lowNibble_zext8, toNat_zext8, toNat_lowNibble]
  · rw [exec_fromNativeByte, exec_fromNativeByte, Host.Outcome.next.injEq, State.driveNibble_inj, lowNibble_eq_iff]

end Sys2Proof.Machine
end

section
/-! PROOFS. The adder and the subtractor (41_arith.md R60 to R65): the carries and borrows of the ripple chains are
those of `BitVec`'s own addition, so that `ADD4` is `a + b` and `SUB4` under `ARITH` is `a - b` on nibbles; what the
two commands drive; and when ADD is XOR. -/

namespace Sys2Proof.Machine

/-! ### The chains -/

/-- Two chains that start alike and have the same cells are the same chain. -/
theorem chain_unique {f : Nat → Bool → Bool} {c d : Nat → Bool} (h0 : c 0 = d 0)
    (hc : ∀ j < 4, c (j + 1) = f j (c j)) (hd : ∀ j < 4, d (j + 1) = f j (d j)) {j : Nat} (hj : j ≤ 4) : c j = d j := by
  induction j with
  | zero => exact h0
  | succ j ih => rw [hc j hj, hd j hj, ih (by omega)]

/-- The carry into cell `j` is the carry of the binary sum of the low `j` bits. -/
theorem carry_eq (a b : U4) (j : Nat) : carry a b j = BitVec.carry j a b false := by
  induction j with
  | zero => exact BitVec.carry_zero.symm
  | succ j ih =>
    rw [carry_succ, ih, BitVec.carry_succ, bit, bit]
    cases a.getLsbD j <;> cases b.getLsbD j <;> simp

/-- `a - b` is `a + ~b + 1`, and the borrow into cell `j` is the missing carry of that sum. -/
theorem borrow_arith_eq (a b : U4) {j : Nat} (hj : j ≤ 4) : borrow .arith a b j = !BitVec.carry j a (~~~b) true := by
  induction j with
  | zero => rw [BitVec.carry_zero]; rfl
  | succ j ih =>
    rw [borrow, fullSub_borrow_arith, ih (by omega), BitVec.carry_succ, BitVec.getLsbD_not, bit, bit]
    cases a.getLsbD j <;> cases b.getLsbD j <;> simp [show j < 4 by omega]

theorem carry_four_iff (a b : U4) : carry a b 4 = true ↔ 16 ≤ a.toNat + b.toNat := by
  have ha := a.isLt
  have hb := b.isLt
  simp only [carry_eq, BitVec.carry, decide_eq_true_eq, Bool.toNat_false]
  omega

theorem borrow_arith_four_iff (a b : U4) : borrow .arith a b 4 = true ↔ a.toNat < b.toNat := by
  rw [borrow_arith_eq a b le_rfl, ← BitVec.ult_eq_not_carry, BitVec.ult_eq_decide, decide_eq_true_eq]

/-! ### The results on nibbles -/

theorem add4_eq_add (a b : U4) : add4 a b = a + b :=
  ext_bits fun j hj => by rw [bit_add4 a b hj, carry_eq, Bool.xor_assoc]; exact (BitVec.getLsbD_add hj a b).symm

theorem sub4_arith_eq_sub (a b : U4) : sub4 .arith a b = a - b := by
  have hsub : a - b = a + ~~~b + BitVec.setWidth 4 (BitVec.ofBool true) := by
    rw [BitVec.sub_eq_add_neg, BitVec.neg_eq_not_add, ← BitVec.add_assoc]; rfl
  refine ext_bits fun j hj => ?_
  rw [bit_sub4 _ a b hj, borrow_arith_eq a b (by omega), hsub, bit, bit, bit, BitVec.getLsbD_add_add_bool hj,
    BitVec.getLsbD_not]
  cases b.getLsbD j <;> simp [hj]

theorem toNat_add4 (a b : U4) : (add4 a b).toNat = (a.toNat + b.toNat) % 16 := by
  rw [add4_eq_add, BitVec.toNat_add]

theorem toNat_sub4_arith (a b : U4) : (sub4 .arith a b).toNat = (16 + a.toNat - b.toNat) % 16 := by
  have hb := b.isLt
  rw [sub4_arith_eq_sub, BitVec.toNat_sub]
  omega

/-! ### The two commands -/

theorem exec_add (a b : U4) (s : State) : exec (.add a b) s = .next (s.driveNibble (add4 a b)) := rfl

theorem exec_sub (a b : U4) (s : State) :
    exec (.sub a b) s = .next (s.driveNibble (sub4 s.build.subTable a b)) := rfl

theorem zext8_add4 (a b : U4) : zext8 (add4 a b) = BitVec.ofNat 8 ((a.toNat + b.toNat) % 16) := by
  rw [zext8_eq_ofNat, toNat_add4]

theorem getLsbD_zext8 (v : U4) {j : Nat} (hj : j < 4) : (zext8 v).getLsbD j = bit v j := by
  rw [zext8, BitVec.getLsbD_append, if_pos hj, bit]

/-- Settles O6: ADD drives `add4`, whose bits are read off the one carry chain that meets R60's equations. -/
theorem addRipplesToTheSumModSixteen : Obligations.AddRipplesToTheSumModSixteen := by
  intro s a b
  refine ⟨decode_pack 0x0 a b, ?_, fun c h0 hc => ?_⟩
  · rw [exec_add, ← zext8_add4]; rfl
  have hcarry : ∀ j ≤ 4, c j = carry a b j := fun j =>
    chain_unique (f := fun j cin => (bit a j && bit b j) || (cin && (bit a j ^^ bit b j))) h0 hc
      fun j _ => carry_succ a b j
  refine ⟨fun j hj => ?_, ?_⟩
  · rw [← zext8_add4, getLsbD_zext8 _ hj, bit_add4 a b hj, hcarry j hj.le]; rfl
  · rw [hcarry 4 le_rfl, carry_four_iff]

/-- Settles O7: SUB drives `sub4`, whose bits are read off the one borrow chain that meets the equations of the block's
table (R62, R65). -/
theorem subRipplesToTheDifference : Obligations.SubRipplesToTheDifference := by
  intro s a b
  refine ⟨decode_pack 0x1 a b, sub4 s.build.subTable a b, exec_sub a b s, fun ht => ?_, fun w h0 hw => ?_⟩
  · rw [ht, toNat_sub4_arith]
  have hcell : ∀ j < 4, w (j + 1) = (fullSub s.build.subTable (bit a j) (bit b j) (w j)).2 := by
    intro j hj
    rw [hw j hj]
    cases s.build.subTable
    · exact (fullSub_borrow_arith ..).symm
    · exact (fullSub_borrow_literal ..).symm
  have hborrow : ∀ j ≤ 4, w j = borrow s.build.subTable a b j := fun j =>
    chain_unique (f := fun j win => (fullSub s.build.subTable (bit a j) (bit b j) win).2) h0 hcell fun _ _ => rfl
  refine ⟨fun j hj => ?_, fun ht => ?_⟩
  · rw [hborrow j hj.le]; exact bit_sub4 _ a b hj
  · rw [hborrow 4 le_rfl, ht, borrow_arith_four_iff]

/-! ### The document's own table (R65) -/

/-- The document's list and table agree on each of the 256 operand pairs. -/
theorem toNat_sub4_literal : ∀ a b : U4, (sub4 .literal a b).toNat =
    (literalPairs.lookup (a.toNat, b.toNat)).getD ((16 + a.toNat - b.toNat) % 16) := by decide

/-- Settles O8: the list by evaluation, the command by `toNat_sub4_literal`. -/
theorem literalSubDiffersOnThirtySixPairs : Obligations.LiteralSubDiffersOnThirtySixPairs := by
  refine ⟨rfl, by decide, fun s a b ht => ?_⟩
  rw [exec_sub, ht, ← toNat_sub4_literal, ← zext8_eq_ofNat]
  rfl

/-! ### The laws (R64) -/

/-- Settles O22: the laws of `+` and `-` on nibbles, and the last carry and borrow. -/
theorem arithmeticLaws : Obligations.ArithmeticLaws := by
  unfold Obligations.ArithmeticLaws
  simp only [add4_eq_add, sub4_arith_eq_sub]
  refine ⟨fun a b => BitVec.toNat_add a b, fun a b => ?_, BitVec.add_comm, BitVec.add_assoc,
    fun a => BitVec.add_zero a, fun a b => ⟨BitVec.sub_add_cancel a b, BitVec.add_sub_cancel a b⟩,
    fun a b => ?_, fun a b => ⟨carry_four_iff a b, borrow_arith_four_iff a b⟩⟩
  · have hb := b.isLt
    rw [BitVec.toNat_sub]
    omega
  · rw [BitVec.sub_eq_add_neg]
    exact congrArg (a + ·) (BitVec.zero_sub b).symm

/-! ### When ADD is XOR (R73) -/

/-- No carry enters the cells up to `n` exactly when none is generated below `n`: a cell passes on a carry it gets, and
makes one of its own from two set bits alone. -/
theorem forall_carry_eq_false_iff (a b : U4) {n : Nat} (hn : n ≤ 4) :
    (∀ j ≤ n, carry a b j = false) ↔ ∀ j < n, bit (and4 a b) j = false := by
  constructor
  · intro h j hj
    have hnone := h (j + 1) hj
    rw [carry_succ, Bool.or_eq_false_iff] at hnone
    exact (bit_gate4 _ a b (by omega)).trans hnone.1
  · intro h j hj
    induction j with
    | zero => rfl
    | succ j ih =>
      have hgen : (bit a j && bit b j) = false := (bit_gate4 _ a b (by omega)).symm.trans (h j hj)
      rw [carry_succ, hgen, ih (by omega)]
      rfl

theorem eq_zero_iff_bits (v : U4) : v = 0 ↔ ∀ j < 4, bit v j = false := by
  simp only [BitVec.eq_of_getLsbD_eq_iff, bit, BitVec.ofNat_eq_ofNat, BitVec.getLsbD_zero]

theorem eq_zero_or_eight_iff_low_bits : ∀ v : U4, v = 0 ∨ v = 0b1000 ↔ ∀ j < 3, bit v j = false := by decide

theorem add4_eq_xor4_iff (a b : U4) : add4 a b = xor4 a b ↔ ∀ j < 4, carry a b j = false := by
  have hbit : ∀ j < 4, bit (add4 a b) j = bit (xor4 a b) j ↔ carry a b j = false := by
    intro j hj
    rw [bit_add4 a b hj, xor4, bit_gate4 _ a b hj]
    cases carry a b j <;> simp
  exact ⟨fun h j hj => (hbit j hj).1 (h ▸ rfl), fun h => ext_bits fun j hj => (hbit j hj).2 (h j hj)⟩

theorem forall_carry_iff_and4_eq_zero (a b : U4) : (∀ j ≤ 4, carry a b j = false) ↔ and4 a b = 0 := by
  rw [forall_carry_eq_false_iff a b le_rfl, eq_zero_iff_bits]

/-- Settles O25: R73's last law by the carries that enter the cells, of which `c[4]` enters none. -/
theorem addIsXorExactlyWhenNoCarryEnters : Obligations.AddIsXorExactlyWhenNoCarryEnters := by
  refine ⟨forall_carry_iff_and4_eq_zero, fun a b => ?_, add4_eq_xor4_iff, fun a b => ?_⟩
  · rw [add4_eq_xor4_iff, ← forall_carry_iff_and4_eq_zero]
    simp only [Nat.le_iff_lt_or_eq, or_imp, forall_and, forall_eq]
    exact and_comm
  · rw [add4_eq_xor4_iff, eq_zero_or_eight_iff_low_bits, ← forall_carry_eq_false_iff a b (by omega)]
    simp only [Nat.lt_succ_iff]

end Sys2Proof.Machine
end

section
/-! PROOFS. The gates (42_logic.md R70 to R73): what XOR, OR and AND drive, and the laws of the gates. -/

namespace Sys2Proof.Machine

/-! ### The bits of the gates -/

theorem bit_xor4 (a b : U4) {j : Nat} (hj : j < 4) : bit (xor4 a b) j = (bit a j ^^ bit b j) := bit_gate4 _ a b hj

theorem bit_or4 (a b : U4) {j : Nat} (hj : j < 4) : bit (or4 a b) j = (bit a j || bit b j) := bit_gate4 _ a b hj

theorem bit_and4 (a b : U4) {j : Nat} (hj : j < 4) : bit (and4 a b) j = (bit a j && bit b j) := bit_gate4 _ a b hj

theorem bit_MAX {j : Nat} (hj : j < 4) : bit MAX j = true :=
  BitVec.getLsbD_allOnes.trans (decide_eq_true hj)

/-! ### The three commands -/

theorem exec_xor (a b : U4) (s : State) : exec (.xor a b) s = .next (s.driveNibble (xor4 a b)) := rfl

theorem exec_or (a b : U4) (s : State) : exec (.or a b) s = .next (s.driveNibble (or4 a b)) := rfl

theorem exec_and_of_hasAnd {s : State} (h : s.build.hasAnd = true) (a b : U4) :
    exec (.and a b) s = .next (s.driveNibble (and4 a b)) := if_pos h

theorem exec_and_of_not_hasAnd {s : State} (h : s.build.hasAnd = false) (a b : U4) :
    exec (.and a b) s = .next s.driveIllegal := if_neg (by simp [h])

/-- Settles O9: XOR drives `xor4`, whose bits are the exclusive or of the operands' bits. -/
theorem xorWorksBitByBit : Obligations.XorWorksBitByBit :=
  fun s a b => ⟨decode_pack 0x2 a b, xor4 a b, fun _ => bit_xor4 a b, exec_xor a b s⟩

/-- Settles O10: OR drives `or4`, whose bits are the or of the operands' bits. -/
theorem orWorksBitByBit : Obligations.OrWorksBitByBit :=
  fun s a b => ⟨decode_pack 0x3 a b, or4 a b, fun _ => bit_or4 a b, exec_or a b s⟩

/-- Settles O11: AND drives `and4` on a block that has the gate, and is a reserved op on one that has not. -/
theorem andWorksBitByBitWhereTheBlockHasIt : Obligations.AndWorksBitByBitWhereTheBlockHasIt :=
  fun _ a b => ⟨decode_pack 0x4 a b,
    fun h => ⟨and4 a b, fun _ => bit_and4 a b, exec_and_of_hasAnd h a b⟩,
    fun h => exec_and_of_not_hasAnd h a b⟩

/-! ### The laws (R73) -/

/-- `a ^ b = (a | b) & ~(a & b)` at each bit, with `~v` written `v ^ 15` (R70). -/
theorem xor4_eq_or4_and_not_and4 (a b : U4) : xor4 a b = and4 (or4 a b) (xor4 (and4 a b) MAX) := by
  refine ext_bits fun j hj => ?_
  simp only [bit_xor4 _ _ hj, bit_or4 _ _ hj, bit_and4 _ _ hj, bit_MAX hj]
  cases bit a j <;> cases bit b j <;> rfl

theorem add4_eq_xor4_of_and4_eq_zero {a b : U4} (h : and4 a b = 0) : add4 a b = xor4 a b :=
  (add4_eq_xor4_iff a b).2 fun j hj => (forall_carry_iff_and4_eq_zero a b).2 h j hj.le

/-- Settles O23: the gates are the operators on nibbles, whose laws `BitVec` has; XOR by OR and AND is read bit by bit,
and a sum into which no carry enters is XOR. -/
theorem gateLaws : Obligations.GateLaws := by
  refine ⟨fun a b => ?_, fun a b c => ?_, fun a b => ?_, xor4_eq_or4_and_not_and4,
    fun _ _ => add4_eq_xor4_of_and4_eq_zero⟩
  · simp only [xor4_eq_xor, or4_eq_or, and4_eq_and]
    exact ⟨BitVec.xor_comm a b, BitVec.or_comm a b, BitVec.and_comm a b⟩
  · simp only [xor4_eq_xor, or4_eq_or, and4_eq_and]
    exact ⟨BitVec.xor_assoc a b c, BitVec.or_assoc a b c, BitVec.and_assoc a b c⟩
  · simp only [xor4_eq_xor]
    exact ⟨BitVec.xor_zero, by rw [BitVec.xor_assoc, BitVec.xor_self]; exact BitVec.xor_zero⟩

/-- Refutes O24: the carry that `8 + 8` makes in cell 3 enters no cell, so the sum is `8 ^ 8` although `8 & 8` is not
0. -/
theorem not_addIsXorExactlyWhenAndIsZero : ¬ Obligations.AddIsXorExactlyWhenAndIsZero := by
  intro h
  have hsum : add4 8 8 = xor4 8 8 := by decide
  have hand : and4 8 8 ≠ 0 := by decide
  exact hand ((h 8 8).1 hsum)

end Sys2Proof.Machine
end

section
/-! PROOFS. The rotations (43_rotate.md R80 to R83): two amounts of one residue mod 4 rotate alike, amounts add up, and
ROR is ROL by the amount that completes 4; what the two commands drive follows, and the two stages of R80. -/

namespace Sys2Proof.Machine

/-! ### Amounts -/

theorem rol4_congr (a : U4) {n m : Nat} (h : n % 4 = m % 4) : rol4 a n = rol4 a m := by
  refine ext_bits fun j hj => ?_
  rw [bit_rol4 a n hj, bit_rol4 a m hj]
  congr 1
  omega

theorem ror4_congr (a : U4) {n m : Nat} (h : n % 4 = m % 4) : ror4 a n = ror4 a m := by
  refine ext_bits fun j hj => ?_
  rw [bit_ror4 a n hj, bit_ror4 a m hj]
  congr 1
  omega

/-- The two directions agree on amounts that complete a multiple of 4. -/
theorem rol4_eq_ror4 (a : U4) {n m : Nat} (h : (n + m) % 4 = 0) : rol4 a n = ror4 a m := by
  refine ext_bits fun j hj => ?_
  rw [bit_rol4 a n hj, bit_ror4 a m hj]
  congr 1
  omega

@[simp] theorem ror4_zero (a : U4) : ror4 a 0 = a := by
  refine ext_bits fun j hj => ?_
  rw [bit_ror4 a 0 hj, Nat.add_zero, Nat.mod_eq_of_lt hj]

@[simp] theorem rol4_zero (a : U4) : rol4 a 0 = a := (rol4_eq_ror4 a rfl).trans (ror4_zero a)

theorem ror4_ror4 (a : U4) (n m : Nat) : ror4 (ror4 a n) m = ror4 a (n + m) := by
  refine ext_bits fun j hj => ?_
  rw [bit_ror4 _ m hj, bit_ror4 a n (Nat.mod_lt _ (by decide)), bit_ror4 a (n + m) hj]
  congr 1
  omega

/-- `3 * n` completes `n` to a multiple of 4, so ROLs add up because RORs do. -/
theorem rol4_rol4 (a : U4) (n m : Nat) : rol4 (rol4 a n) m = rol4 a (n + m) := by
  have hror (v : U4) (k : Nat) : rol4 v k = ror4 v (3 * k) := rol4_eq_ror4 v (by omega)
  rw [hror, hror, hror, ror4_ror4, Nat.mul_add]

theorem ror4_rol4 (a : U4) (n : Nat) : ror4 (rol4 a n) n = a := by
  rw [rol4_eq_ror4 a (show (n + 3 * n) % 4 = 0 by omega), ror4_ror4,
    ror4_congr a (show (3 * n + n) % 4 = 0 % 4 by omega), ror4_zero]

/-! ### The value of the result -/

/-- Of the sum, the bits below `k` are the top `k` bits of `a`, and the bits from `k` on are `a`'s own, moved up. -/
theorem rol4_eq_ofNat (a : U4) {k : Nat} (hk : k ≤ 4) :
    rol4 a k = BitVec.ofNat 4 (2 ^ k * a.toNat + a.toNat / 2 ^ (4 - k)) := by
  have htop : a.toNat / 2 ^ (4 - k) < 2 ^ k := by
    rw [Nat.div_lt_iff_lt_mul (by positivity), ← Nat.pow_add, Nat.add_sub_cancel' hk]
    exact a.isLt
  refine ext_bits fun j hj => ?_
  rw [bit_rol4 a k hj, bit, bit, BitVec.getLsbD_ofNat, decide_eq_true hj, Bool.true_and,
    Nat.testBit_two_pow_mul_add _ htop]
  split
  · rw [Nat.testBit_div_two_pow]
    exact congrArg a.getLsbD (by omega)
  · exact congrArg a.getLsbD (by omega)

theorem toNat_rol4 (a : U4) {k : Nat} (hk : k ≤ 4) :
    (rol4 a k).toNat = (a.toNat * 2 ^ k + a.toNat / 2 ^ (4 - k)) % 16 := by
  rw [rol4_eq_ofNat a hk, BitVec.toNat_ofNat, Nat.mul_comm]

theorem toNat_ror4 (a : U4) {k : Nat} (hk : k ≤ 4) :
    (ror4 a k).toNat = (a.toNat / 2 ^ k + a.toNat * 2 ^ (4 - k)) % 16 := by
  rw [← rol4_eq_ror4 a (show (4 - k + k) % 4 = 0 by omega), toNat_rol4 a (Nat.sub_le 4 k), Nat.sub_sub_self hk,
    Nat.add_comm]

/-! ### The two commands -/

theorem exec_rol (a b : U4) (s : State) :
    exec (.rol a b) s = .next (s.driveNibble (rol4 a (b.toNat % 4))) := by
  rw [exec, execRol, amount_eq]

theorem exec_ror (a b : U4) (s : State) :
    exec (.ror a b) s = .next (s.driveNibble (ror4 a (b.toNat % 4))) := by
  rw [exec, execRor, amount_eq]

/-- Settles O12: ROL drives `rol4`, whose index map is that of ROR by the amount that completes 4. -/
theorem rolRotatesTowardsHigherWeight : Obligations.RolRotatesTowardsHigherWeight := by
  intro s a b
  refine ⟨decode_pack 0x5 a b, rol4 a (b.toNat % 4), exec_rol a b s, fun j hj => ?_, toNat_rol4 a (by omega)⟩
  rw [rol4_eq_ror4 a (show (b.toNat % 4 + (4 - b.toNat % 4)) % 4 = 0 by omega)]
  exact bit_ror4 a _ hj

/-- Settles O13: ROR drives `ror4`, whose bits are stated by the same index map. -/
theorem rorRotatesTowardsLowerWeight : Obligations.RorRotatesTowardsLowerWeight :=
  fun s a b => ⟨decode_pack 0x6 a b, ror4 a (b.toNat % 4), exec_ror a b s, fun _ => bit_ror4 a _,
    toNat_ror4 a (by omega)⟩

/-! ### The laws (R83) -/

/-- The positions of the 1 bits. -/
def onePositions (v : U4) : List Nat := (List.range 4).filter fun j => v.getLsbD j

theorem length_onePositions_rol4_one : ∀ v : U4, (onePositions (rol4 v 1)).length = (onePositions v).length := by
  decide

/-- A rotation is made of rotations by 1, each of which keeps the number of 1 bits. -/
theorem length_onePositions_rol4 (a : U4) (n : Nat) :
    (onePositions (rol4 a n)).length = (onePositions a).length := by
  induction n with
  | zero => rw [rol4_zero]
  | succ n ih => rw [← rol4_rol4, length_onePositions_rol4_one, ih]

/-- Settles O26: each law is one of the residues of the amounts, and the count by rotations of 1. -/
theorem rotationLaws : Obligations.RotationLaws := by
  intro a n m
  refine ⟨rol4_congr a (by omega), ror4_congr a (by omega), rol4_eq_ror4 a (by omega), ror4_rol4 a n, ?_, ?_, ?_,
    length_onePositions_rol4 a n⟩
  · rw [rol4_rol4]
    exact rol4_congr a (by omega)
  · exact (rol4_congr a rfl).trans (rol4_zero a)
  · exact (ror4_congr a rfl).trans (ror4_zero a)

/-! ### The two stages (R80) -/

theorem amount_eq_stages : ∀ b : U4, amount b = (bit b 0).toNat + 2 * (bit b 1).toNat := by
  decide

section
variable {rot : U4 → Nat → U4} (hzero : ∀ a, rot a 0 = a) (hadd : ∀ a n m, rot (rot a n) m = rot a (n + m))
include hzero

/-- A stage that is not selected rotates by 0. -/
theorem rotStage_eq (k : Nat) (e : Bool) (a : U4) : rotStage rot k e a = rot a (k * e.toNat) := by
  cases e
  · exact (hzero a).symm
  · exact congrArg (rot a) (Nat.mul_one k).symm

include hadd

theorem barrel_eq (a b : U4) : barrel rot a b = rot a (amount b) := by
  rw [barrel, rotStage_eq hzero, rotStage_eq hzero, hadd, Nat.one_mul, amount_eq_stages]

/-- The stages commute, since the amounts they add do. -/
theorem stages_reversed (a b : U4) :
    rotStage rot 1 (bit b 0) (rotStage rot 2 (bit b 1) a) = barrel rot a b := by
  simp only [barrel, rotStage_eq hzero, hadd, Nat.add_comm]

end

/-- Settles O28: either direction has the two properties that the stages need. -/
theorem twoStagesMakeTheBarrelRotator : Obligations.TwoStagesMakeTheBarrelRotator := fun a b =>
  ⟨barrel_eq rol4_zero rol4_rol4 a b, barrel_eq ror4_zero ror4_ror4 a b,
    stages_reversed rol4_zero rol4_rol4 a b, stages_reversed ror4_zero ror4_ror4 a b⟩

end Sys2Proof.Machine
end

section
/-! PROOFS. Reserved and legal commands (60_exceptions.md R90 to R93): what each drives, and that no step stops. -/

namespace Sys2Proof.Machine

/-! ### Reserved ops (R91) -/

/-- Settles O16: the rows of the reserved ops by evaluation, a word by `eval` of its fields, whose `ill` is 1 on the
reserved ops alone. -/
theorem reservedOpsDriveIllegal : Obligations.ReservedOpsDriveIllegal := by
  refine ⟨fun _ _ _ => rfl, fun _ _ _ _ => rfl, fun _ _ _ _ => rfl, fun s op a b h => ?_, fun s op a b h => ?_⟩
  · have hop : reservedOp s.build op = true := (reservedOp_iff s.build op).2 h
    rw [decodedCommandsComputeEval, eval_of_reserved hop]
  · have hop : reservedOp s.build op = false := by rwa [← Bool.not_eq_true, reservedOp_iff]
    have hill : (eval s.build op a b).2 = false := (eval_ill s.build op a b).trans hop
    exact ⟨_, by rw [decodedCommandsComputeEval, hill]⟩

/-! ### Legal commands (R90) -/

/-- Every branch of `eval` drives a zero-extended nibble, the reserved ones that of 0 (R12). -/
theorem eval_y_eq_zext8 (build : Build) (op a b : U4) : ∃ r : U4, (eval build op a b).1 = zext8 r := by
  have hzero : 0x00#8 = zext8 0 := rfl
  rw [eval, hzero]
  split_ifs <;> exact ⟨_, rfl⟩

theorem eval_y_le (build : Build) (op a b : U4) : (eval build op a b).1.toNat ≤ 15 := by
  obtain ⟨r, hr⟩ := eval_y_eq_zext8 build op a b
  rw [hr, toNat_zext8]
  exact Nat.le_of_lt_succ r.isLt

/-- A command of the opcode map drives `eval` of its own fields. -/
theorem exec_of_wellFormed {i : Instr} (h : i.wellFormed = true) (s : State) :
    exec i s = .next (s.driveEval i.op i.a i.b) := by
  rw [← exec_decodeFields, decodeFields_own_fields h]

theorem legal_iff (build : Build) (i : Instr) : legal build i = true ↔ reservedOp build i.op = false := by
  simp [legal]

/-- Settles O18: the command drives `eval` of its fields, whose `ill` is 0 on an op that is not reserved. -/
theorem everyLegalCommandCompletes : Obligations.EveryLegalCommandCompletes := by
  intro s i hi hlegal
  have hill : (eval s.build i.op i.a i.b).2 = false := (eval_ill ..).trans ((legal_iff s.build i).1 hlegal)
  refine ⟨_, eval_y_le s.build i.op i.a i.b, ?_⟩
  rw [exec_of_wellFormed hi, State.driveEval, hill, State.drive]

/-! ### No step stops (R92, R93, R117) -/

theorem holdFor_goes_on (d : Nat) (s : State) : ∃ t, holdFor d s = .next t := by
  rcases holdFor_cases d s with ⟨_, e⟩ | ⟨_, _, _, e⟩ | ⟨_, _, e⟩ | ⟨_, e⟩
  · exact ⟨_, e⟩
  · exact ⟨_, e.trans (exec_decode _ _)⟩
  · exact ⟨_, e⟩
  · exact ⟨_, e⟩

theorem act_goes_on (x : HostAction) (s : State) : ∃ t, act x s = .next t := by
  cases x with
  | command c => exact ⟨_, runCommand_eq_record c s⟩
  | hold d => exact holdFor_goes_on d s
  | issue _ | sample | release | powerCycle => exact ⟨_, rfl⟩

/-- Settles O44: a step is one action of the host or one hold, and each goes on. -/
theorem everyStepGoesOn : Obligations.EveryStepGoesOn := by
  intro s
  rcases step_cases s with ⟨_, e⟩ | ⟨x, rest, _, e⟩ <;> rw [e]
  · exact holdFor_goes_on 1 s
  · exact act_goes_on x _

end Sys2Proof.Machine
end

section
/-! PROOFS. A power cycle and a hold after it (60_exceptions.md R103; 70_reset_and_hazards.md R111, R112): the outputs
are draws until the inputs have been held for `T_SETTLE`. -/

namespace Sys2Proof.Machine

/-! ### Holding driven inputs that are not settled -/

theorem State.settled_of_pos {s : State} (h : 0 < s.settleLeft) : s.settled = false := by
  rw [← Bool.not_eq_true, State.settled_iff]
  omega

/-- Held for at least the time left, the outputs settle at `eval` of the ports. -/
theorem holdFor_of_le {s : State} {t : Nat} (hdriven : s.driven = true) (hsettled : s.settled = false)
    (h : s.settleLeft ≤ t) : holdFor t s = .next (s.settleNow.driveEval s.op s.a s.b) := by
  have hsettle : holdFor t s = settle s := by simp [holdFor, hsettled, hdriven, h]
  rw [hsettle, settle, State.onPorts, decode_pack, exec_decodeFields]

/-- Held for less than the time left, the outputs are drawn again and the time held is taken off. -/
theorem holdFor_of_lt {s : State} {t : Nat} (hdriven : s.driven = true) (h : t < s.settleLeft) :
    holdFor t s = .next ({ s with settleLeft := s.settleLeft - t }).redraw := by
  have hsettled : s.settled = false := State.settled_of_pos (by omega)
  simp [holdFor, hsettled, hdriven, h]

/-! ### The steps -/

theorem step_of_hold {s : State} {t : Nat} {rest : List HostAction} (h : s.script = .hold t :: rest) :
    step s = holdFor t (s.withScript rest) := by
  simp [step, h, act]

theorem step_of_powerCycle {s : State} {rest : List HostAction} (h : s.script = .powerCycle :: rest) :
    step s = .next (s.withScript rest).powerCycle := by
  simp [step, h, act]

theorem core_run_one (s : State) : core.run 1 s = step s := by
  obtain ⟨t, h⟩ := everyStepGoesOn s
  rw [core_run_succ 0 h, h]
  rfl

/-- Settles O36: the power cycle draws the outputs and leaves all of `T_SETTLE` to wait, and the hold after it is
shorter than that or settles them. -/
theorem powerUpOutputsAreFreeUntilHeld : Obligations.PowerUpOutputsAreFreeUntilHeld := by
  refine ⟨fun s t rest hpos hdriven hscript => ?_, rfl, rfl, rfl⟩
  have hstep := step_of_powerCycle hscript
  set p := (s.withScript (.hold t :: rest)).powerCycle with hp
  have hunsettled : p.settled = false := State.settled_of_pos hpos
  have hrun : core.run 2 s = holdFor t (p.withScript rest) := by
    rw [core_run_succ 1 hstep, core_run_one, step_of_hold rfl]
  refine ⟨p, (core_run_one s).trans hstep, hunsettled, rfl, rfl, ?_⟩
  rw [hrun]
  rcases Nat.lt_or_ge t s.build.tSettle with hlt | hge
  · refine ⟨_, holdFor_of_lt hdriven hlt, fun _ => ⟨State.settled_of_pos ?_, rfl, rfl⟩, fun hge => by omega⟩
    exact Nat.sub_pos_of_lt hlt
  · exact ⟨_, holdFor_of_le hdriven hunsettled hge, fun hlt => by omega, fun _ => ⟨by simp [hdriven, hp], rfl⟩⟩

end Sys2Proof.Machine
end

section
/-! PROOFS. The invariant of the ports and their settling (70_reset_and_hazards.md R111 to R113, R116, R117): reset
meets it, each operation keeps it, and so do a step and a run. -/

namespace Sys2Proof.Machine

/-- Settles O42: after power-up nothing drives the inputs, all of `T_SETTLE` is left, and the outputs are draw 0 of one
draw made. -/
theorem resetMeetsTheInvariant : Obligations.ResetMeetsTheInvariant where
  tSettle_pos := Nat.succ_pos _
  left_le := le_rfl
  undriven _ := rfl
  outputs hsettled := Bool.noConfusion hsettled
  drawn _ := ⟨Nat.one_pos, rfl, rfl⟩

/-! ### The operations on the state -/

/-- Unsettled outputs have time left: undriven inputs have all of it, and driven ones with none are settled. -/
theorem State.Inv.left_pos {s : State} (h : s.Inv) (hunsettled : s.settled = false) : 0 < s.settleLeft := by
  cases hdriven : s.driven with
  | false => exact h.undriven hdriven ▸ h.tSettle_pos
  | true =>
    refine Nat.pos_of_ne_zero fun hzero => ?_
    simp [s.settled_iff.2 ⟨hdriven, hzero⟩] at hunsettled

/-- The invariant says nothing of the script. -/
theorem State.Inv.withScript {s : State} (h : s.Inv) (l : List HostAction) : (s.withScript l).Inv :=
  ⟨h.tSettle_pos, h.left_le, h.undriven, h.outputs, h.drawn⟩

/-- The invariant says nothing of the samples. -/
theorem State.Inv.record {s : State} (h : s.Inv) : s.record.Inv :=
  ⟨h.tSettle_pos, h.left_le, h.undriven, h.outputs, h.drawn⟩

/-- A fresh draw meets the invariant wherever some time within `T_SETTLE` is left, all of it on undriven inputs. -/
theorem State.inv_redraw {s : State} (hpos : 0 < s.settleLeft) (hle : s.settleLeft ≤ s.build.tSettle)
    (hundriven : s.driven = false → s.settleLeft = s.build.tSettle) : s.redraw.Inv where
  tSettle_pos := Nat.lt_of_lt_of_le hpos hle
  left_le := hle
  undriven := hundriven
  outputs hsettled := by simp [State.settled_of_pos hpos] at hsettled
  drawn _ := s.drawn_redraw

/-- Driven inputs that settle at `eval` of the ports meet the invariant. -/
theorem State.inv_settle {s : State} (hpos : 0 < s.build.tSettle) (hdriven : s.driven = true) :
    (s.settleNow.driveEval s.op s.a s.b).Inv where
  tSettle_pos := hpos
  left_le := Nat.zero_le _
  undriven hundriven := Bool.noConfusion (hdriven.symm.trans hundriven)
  outputs _ := rfl
  drawn hunsettled := by simp [hdriven] at hunsettled

/-! ### The actions of the host (R117) -/

theorem State.Inv.present {s : State} (h : s.Inv) (c : Command) : (s.present c).Inv := by
  rcases s.present_cases c with ⟨_, _, e⟩ | ⟨_, e⟩ <;> rw [e]
  · exact h
  · exact State.inv_redraw h.tSettle_pos le_rfl fun _ => rfl

theorem State.Inv.takeSample {s : State} (h : s.Inv) : s.takeSample.Inv := by
  cases hs : s.settled with
  | true => exact State.takeSample_of_settled hs ▸ h.record
  | false =>
    exact State.takeSample_of_unsettled hs ▸ State.inv_redraw (h.left_pos hs) h.left_le h.undriven

theorem State.Inv.release {s : State} (h : s.Inv) : s.release.Inv :=
  State.inv_redraw h.tSettle_pos le_rfl fun _ => rfl

theorem State.Inv.powerCycle {s : State} (h : s.Inv) : s.powerCycle.Inv :=
  State.inv_redraw h.tSettle_pos le_rfl fun _ => rfl

theorem State.Inv.of_holdFor {d : Nat} {s t : State} (h : s.Inv) (hhold : holdFor d s = .next t) : t.Inv := by
  rcases holdFor_cases d s with ⟨_, e⟩ | ⟨hs, hdriven, hle, _⟩ | ⟨hdriven, hlt, e⟩ | ⟨hundriven, e⟩
  · cases e.symm.trans hhold
    exact h
  · cases (holdFor_of_le hdriven hs hle).symm.trans hhold
    exact State.inv_settle h.tSettle_pos hdriven
  · cases e.symm.trans hhold
    exact State.inv_redraw (Nat.sub_pos_of_lt hlt) (le_trans (Nat.sub_le _ _) h.left_le) fun hundriven =>
      Bool.noConfusion (hdriven.symm.trans hundriven)
  · cases e.symm.trans hhold
    exact State.inv_redraw (h.undriven hundriven ▸ h.tSettle_pos) h.left_le h.undriven

/-- The transaction settles the presented word, whose fields stand on the ports, and samples it. -/
theorem State.Inv.of_runCommand {c : Command} {s t : State} (h : s.Inv) (hrun : runCommand c s = .next t) : t.Inv := by
  cases (runCommand_eq_record c s).symm.trans hrun
  have hsettle := State.inv_settle (h.present c).tSettle_pos (s.present_driven c)
  rw [s.present_op, s.present_a, s.present_b] at hsettle
  exact hsettle.record

theorem State.Inv.of_act {x : HostAction} {s t : State} (h : s.Inv) (hact : act x s = .next t) : t.Inv := by
  cases x with
  | command c => exact h.of_runCommand hact
  | hold d => exact h.of_holdFor hact
  | issue c => cases hact; exact h.present c
  | sample => cases hact; exact h.takeSample
  | release => cases hact; exact h.release
  | powerCycle => cases hact; exact h.powerCycle

/-! ### Steps and runs -/

/-- Settles O43: a step is one action of the host or one hold, and each keeps the invariant. -/
theorem everyStepKeepsTheInvariant : Obligations.EveryStepKeepsTheInvariant := by
  intro s t h hstep
  rcases step_cases s with ⟨_, e⟩ | ⟨x, rest, _, e⟩ <;> rw [e] at hstep
  · exact h.of_holdFor hstep
  · exact (h.withScript rest).of_act hstep

/-- A run from a state of the invariant ends in one. -/
theorem State.Inv.of_run {k : Nat} {s t : State} (h : s.Inv) (hrun : core.run k s = .next t) : t.Inv := by
  induction k generalizing s with
  | zero => cases hrun; exact h
  | succ k ih =>
    obtain ⟨u, hstep⟩ := everyStepGoesOn s
    exact ih (everyStepKeepsTheInvariant s u h hstep) ((core_run_succ k hstep).symm.trans hrun)

end Sys2Proof.Machine
end

section
/-! PROOFS. Issuing (70_reset_and_hazards.md R113, R117): a new word restarts the settling time, the word that stands
changes nothing. -/

namespace Sys2Proof.Machine

theorem State.drives_eq_false_iff (s : State) (c : Command) :
    s.drives c = false ↔ s.driven = false ∨ pack s.op s.a s.b ≠ c := by
  rw [← Bool.not_eq_true, State.drives_iff, not_and_or, Bool.not_eq_true]
  rfl

theorem State.present_settleLeft_of_new {s : State} {c : Command} (h : s.drives c = false) :
    (s.present c).settleLeft = s.build.tSettle := by
  rw [State.present_of_new h]; rfl

theorem State.present_withScript (s : State) (c : Command) (l : List HostAction) :
    (s.withScript l).present c = (s.present c).withScript l := by
  cases hnew : s.drives c with
  | true => rw [State.present_of_drives hnew, State.present_of_drives (s := s.withScript l) hnew]
  | false => rw [State.present_of_new hnew, State.present_of_new (s := s.withScript l) hnew]; rfl

/-- Settles O32: a word the host does not drive is presented anew, and one it drives changes nothing. -/
theorem inputChangeRestartsSettling : Obligations.InputChangeRestartsSettling := by
  intro s c rest h
  rw [step_of_issue h, State.present_withScript]
  refine ⟨fun hnew => ?_, fun hdriven hports => ?_⟩
  · rw [State.present_of_new ((s.drives_eq_false_iff c).2 hnew)]; rfl
  · rw [State.present_of_drives ((s.drives_iff c).2 ⟨hdriven, hports⟩)]; rfl

end Sys2Proof.Machine
end

section
/-! PROOFS. Holding the inputs (70_reset_and_hazards.md R112, R113, R116): what one hold does to driven and to undriven
inputs, and how the times of several holds add up. -/

namespace Sys2Proof.Machine

/-! ### Settled outputs -/

@[simp] theorem State.driveEval_op (s : State) (op a b : U4) : (s.driveEval op a b).op = s.op := rfl
@[simp] theorem State.driveEval_a (s : State) (op a b : U4) : (s.driveEval op a b).a = s.a := rfl
@[simp] theorem State.driveEval_b (s : State) (op a b : U4) : (s.driveEval op a b).b = s.b := rfl

/-- By the invariant settled outputs are `eval` of the ports already, so settling them again changes nothing. -/
theorem State.Inv.settleNow_driveEval {s : State} (h : s.Inv) (hsettled : s.settled = true) :
    s.settleNow.driveEval s.op s.a s.b = s := by
  obtain ⟨_, hzero⟩ := s.settled_iff.1 hsettled
  rw [State.driveEval, s.settleNow_build, ← h.outputs hsettled, State.settleNow, ← hzero]
  rfl

/-- Driven inputs with no time left are settled, and so show `eval` of the ports. -/
theorem State.Inv.shows_eval {s : State} (h : s.Inv) (hdriven : s.driven = true) (hleft : s.settleLeft = 0) :
    s.settled = true ∧ (s.y, s.ill) = eval s.build s.op s.a s.b :=
  have hsettled := s.settled_iff.2 ⟨hdriven, hleft⟩
  ⟨hsettled, h.outputs hsettled⟩

/-! ### One hold -/

/-- Driven inputs held for the time left show `eval` of the ports: the outputs settle at it, or by the invariant they
stand there already. -/
theorem State.Inv.holdFor_eq_driveEval {s : State} {d : Nat} (h : s.Inv) (hdriven : s.driven = true)
    (hle : s.settleLeft ≤ d) : holdFor d s = .next (s.settleNow.driveEval s.op s.a s.b) := by
  cases hs : s.settled with
  | false => exact holdFor_of_le hdriven hs hle
  | true => simp [h.settleNow_driveEval hs, holdFor, hs]

theorem holdFor_of_undriven {s : State} (hundriven : s.driven = false) (d : Nat) : holdFor d s = .next s.redraw := by
  simp [holdFor, State.settled, hundriven]

/-- The state after driven inputs were held for `d`: the time left counted down, with the outputs and the count of draws
then reached. -/
def State.counted (s : State) (d : Nat) (v : Byte) (ill : Bool) (n : Nat) : State :=
  { s with settleLeft := s.settleLeft - d, y := v, ill := ill, draws := n }

theorem State.counted_counted (s : State) (d e : Nat) (v w : Byte) (i j : Bool) (n m : Nat) :
    (s.counted d v i n).counted e w j m = s.counted (d + e) w j m := by
  simp [State.counted, Nat.sub_sub]

/-- A hold takes its time off what is left to driven inputs, and changes the outputs and the count of draws at most. -/
theorem holdFor_eq_counted {s : State} (hdriven : s.driven = true) (d : Nat) :
    ∃ v i n, holdFor d s = .next (s.counted d v i n) := by
  rcases holdFor_cases d s with ⟨hs, e⟩ | ⟨hs, _, hle, _⟩ | ⟨_, _, e⟩ | ⟨hundriven, _⟩
  · have hzero : s.settleLeft - d = s.settleLeft := by simp [(s.settled_iff.1 hs).2]
    exact ⟨s.y, s.ill, s.draws, by rw [e, State.counted, hzero]⟩
  · rw [holdFor_of_le hdriven hs hle, State.settleNow, ← Nat.sub_eq_zero_of_le hle]
    exact ⟨_, _, _, rfl⟩
  · exact ⟨_, _, _, e⟩
  · exact Bool.noConfusion (hdriven.symm.trans hundriven)

theorem step_of_idle {s : State} (h : s.script = []) : step s = holdFor 1 s := by
  simp [step, h, idle]

/-- Settles O31: a step that is a hold, of its time or of one unit, does what `holdFor` does in each case. -/
theorem holdingSettlesTheOutputs : Obligations.HoldingSettlesTheOutputs := by
  intro s t rest h hscript
  have hstep : step s = holdFor t (s.withScript rest) := by
    rcases hscript with hhold | ⟨hnil, rfl, rfl⟩
    · exact step_of_hold hhold
    · rw [step_of_idle hnil, ← hnil]; rfl
  rw [hstep]
  have hinv : (s.withScript rest).Inv := h.withScript rest
  exact ⟨fun hdriven hle => hinv.holdFor_eq_driveEval hdriven hle,
    fun hdriven hlt => holdFor_of_lt (s := s.withScript rest) hdriven hlt,
    fun hundriven => holdFor_of_undriven (s := s.withScript rest) hundriven t⟩

/-! ### Holds of driven inputs -/

/-- By induction over the list of times: each hold takes its own time off what is left. -/
theorem run_holds_eq_counted {s : State} {ts : List Nat} {rest : List HostAction} (hdriven : s.driven = true)
    (h : s.script = ts.map HostAction.hold ++ rest) :
    ∃ v i n, core.run ts.length s = .next ((s.counted ts.sum v i n).withScript rest) := by
  induction ts generalizing s with
  | nil =>
    obtain rfl : s.script = rest := h
    exact ⟨s.y, s.ill, s.draws, rfl⟩
  | cons d ts ih =>
    set u := s.withScript (ts.map HostAction.hold ++ rest)
    obtain ⟨v, i, n, hhold⟩ := holdFor_eq_counted (s := u) hdriven d
    obtain ⟨w, j, m, hrun⟩ := ih (s := u.counted d v i n) hdriven rfl
    refine ⟨w, j, m, ?_⟩
    rw [List.length_cons, core_run_succ _ ((step_of_hold h).trans hhold), hrun, State.counted_counted, List.sum_cons]
    rfl

/-- Settles O33: of the time left after the issue, at most `T_SETTLE` and all of it for a new word, the holds take off
their sum; where none remains the outputs are settled, and by the invariant they are `eval` of the word. -/
theorem holdsAddUpToTheSettlingTime : Obligations.HoldsAddUpToTheSettlingTime := by
  intro s c ts rest h hscript
  have hstep := step_of_issue hscript
  set p := (s.withScript (ts.map HostAction.hold ++ rest)).present c with hp
  have hinv : p.Inv := (h.withScript _).present c
  have hbuild : p.build = s.build := State.present_build _ c
  have hdriven : p.driven = true := State.present_driven _ c
  have heval : eval p.build p.op p.a p.b = eval s.build (opField c) (aField c) (bField c) := by simp [hp]
  obtain ⟨v, i, n, hrun⟩ := run_holds_eq_counted (s := p) hdriven (State.present_script _ c)
  rw [Nat.add_comm 1, core_run_succ _ hstep, hrun]
  refine ⟨_, rfl, rfl, State.onPorts_present _ c, hbuild, State.present_samples _ c, fun hle => ?_,
    fun hlt hnew => ?_⟩
  · have hleft : p.settleLeft ≤ ts.sum := hinv.left_le.trans (hbuild ▸ hle)
    exact heval ▸ (hinv.of_run hrun).shows_eval hdriven (Nat.sub_eq_zero_of_le hleft)
  · have hleft : p.settleLeft = s.build.tSettle :=
      State.present_settleLeft_of_new ((State.drives_eq_false_iff _ c).2 hnew)
    exact State.settled_of_pos (Nat.sub_pos_of_lt (hleft ▸ hlt))

/-! ### Holds of undriven inputs -/

/-- Several draws leave the last one on the outputs, and nothing else but their count. -/
theorem State.redraw_iterate_succ (s : State) (n : Nat) :
    State.redraw^[n + 1] s =
      { s with y := Config.freeY (s.draws + n), ill := Config.freeIll (s.draws + n), draws := s.draws + n + 1 } := by
  induction n with
  | zero => rfl
  | succ n ih => rw [Function.iterate_succ_apply', ih]; rfl

/-- By induction over the list of times: each hold is one draw. -/
theorem run_holds_redraws {s : State} {ts : List Nat} {rest : List HostAction} (hundriven : s.driven = false)
    (h : s.script = ts.map HostAction.hold ++ rest) :
    core.run ts.length s = .next (State.redraw^[ts.length] (s.withScript rest)) := by
  induction ts generalizing s with
  | nil =>
    obtain rfl : s.script = rest := h
    rfl
  | cons d ts ih =>
    set u := s.withScript (ts.map HostAction.hold ++ rest)
    have hstep : step s = .next u.redraw := (step_of_hold h).trans (holdFor_of_undriven (s := u) hundriven d)
    exact (core_run_succ _ hstep).trans (ih hundriven rfl)

theorem step_of_release {s : State} {rest : List HostAction} (h : s.script = .release :: rest) :
    step s = .next (s.withScript rest).release := by
  simp [step, h, act]

/-- Settles O37: the release is the first draw and each hold of the undriven inputs one more. -/
theorem releasedInputsNeverSettle : Obligations.ReleasedInputsNeverSettle := by
  intro s ts rest h
  have hrun : core.run (1 + ts.length) s = .next (State.redraw^[ts.length + 1]
      { s with driven := false, settleLeft := s.build.tSettle, script := rest }) := by
    rw [Nat.add_comm, core_run_succ _ (step_of_release h)]
    exact run_holds_redraws rfl rfl
  rw [State.redraw_iterate_succ] at hrun
  exact ⟨_, hrun, rfl, rfl⟩

end Sys2Proof.Machine
end

section
/-! PROOFS. Sampling (70_reset_and_hazards.md R113, R116, R117): unsettled and settled samples, and the transaction as
its three actions. -/

namespace Sys2Proof.Machine

/-! ### Sampling -/

/-- Settles O35: an unsettled sample is recorded and the outputs drawn again; what is recorded is, by the invariant, the
latest draw. -/
theorem unsettledSampleIsADraw : Obligations.UnsettledSampleIsADraw := by
  intro s rest hscript hunsettled
  have hstep : step s = .next (s.withScript rest).record.redraw := by
    rw [step_of_sample hscript, State.takeSample_of_unsettled (s := s.withScript rest) hunsettled]
  refine ⟨hstep, fun h => ?_⟩
  obtain ⟨hdraws, hy, hill⟩ := h.drawn hunsettled
  rw [← hy, ← hill]
  exact ⟨hdraws, hstep⟩

theorem holdFor_samples {d : Nat} {s t : State} (h : holdFor d s = .next t) : t.samples = s.samples := by
  cases hdriven : s.driven with
  | true =>
    obtain ⟨_, _, _, e⟩ := holdFor_eq_counted hdriven d
    cases e.symm.trans h; rfl
  | false => cases (holdFor_of_undriven hdriven d).symm.trans h; rfl

/-- Settles O41: only a transaction and a sample take one; the transaction's is `eval` of the word it presented, and the
sample's, of outputs that must be settled, `eval` of the ports by the invariant. -/
theorem settledSamplingSeesEval : Obligations.SettledSamplingSeesEval := by
  intro s t h hsettled hstep
  rcases step_cases s with ⟨_, e⟩ | ⟨x, rest, hscript, e⟩ <;> rw [e] at hstep
  · exact .inl (holdFor_samples hstep)
  · cases x with
    | command c =>
      cases (runCommand_eq_record c _).symm.trans hstep
      exact .inr ⟨sampleOf s.build c, by simp [sampleOf], by simp [sampleOf]⟩
    | sample =>
      cases hstep
      refine .inr ⟨⟨s.y, s.ill⟩, by simp, ?_⟩
      simpa using h.outputs (hsettled (by simp [hscript]))
    | hold d => exact .inl (holdFor_samples (s := s.withScript rest) hstep)
    | issue c => cases hstep; exact .inl (by simp)
    | release | powerCycle => cases hstep; exact .inl rfl

/-! ### The transaction -/

/-- Settles O38: after the issue a hold of `T_SETTLE` shows `eval` of the word, and the sample then taken is settled, as
in the transaction. -/
theorem commandIsIssueHoldSample : Obligations.CommandIsIssueHoldSample := by
  intro s c rest h
  set p := s.present c with hp
  set q := p.settleNow.driveEval p.op p.a p.b with hq
  have hinv : p.Inv := h.present c
  have hdriven : p.driven = true := s.present_driven c
  have hle : p.settleLeft ≤ s.build.tSettle := s.present_build c ▸ hinv.left_le
  have hpresent (l : List HostAction) : (s.withScript l).present c = p.withScript l := s.present_withScript c l
  have hsettled : q.settled = true := by simp [hq, hdriven]
  have hissue : step (s.withScript (.issue c :: .hold s.build.tSettle :: .sample :: rest)) =
      .next (p.withScript (.hold s.build.tSettle :: .sample :: rest)) :=
    (step_of_issue rfl).trans (congrArg _ (hpresent _))
  have hhold : step (p.withScript (.hold s.build.tSettle :: .sample :: rest)) =
      .next (q.withScript (.sample :: rest)) :=
    (step_of_hold rfl).trans ((hinv.withScript (.sample :: rest)).holdFor_eq_driveEval hdriven hle)
  have hsample : step (q.withScript (.sample :: rest)) = .next (q.withScript rest).record :=
    (step_of_sample rfl).trans (congrArg _ (State.takeSample_of_settled (s := q.withScript rest) hsettled))
  have hcommand : step (s.withScript (.command c :: rest)) = .next (q.withScript rest).record := by
    rw [step_of_command (rest := rest) rfl, runCommand_eq_record, hq, hp, s.present_op, s.present_a, s.present_b]
    exact congrArg (fun u : State => Host.Outcome.next (u.settleNow.driveEval _ _ _).record) (hpresent rest)
  rw [core_run_one, hcommand, core_run_succ 2 hissue, core_run_succ 1 hhold, core_run_one, hsample]

end Sys2Proof.Machine
end

section
/-! PROOFS. The encoding examples (30_encoding.md; 95_test_vectors.md L2.8): the number of an encoded command, read as a
table word of 12 bits, decodes to the command. -/

namespace Sys2Proof

/-- The number is below `2 ^ 12`, so no bit of it is dropped and it is a word: the encoded one. -/
theorem decodeTableWord_encode {i : Instr} (h : i.wellFormed = true) :
    decodeTableWord 12 (encode i).toNat = some i := by
  have hlt : (encode i).toNat < 2 ^ 12 := (encode i).isLt
  have hword : commandOfTableWord 12 (encode i).toNat = .ok (encode i) := by
    rw [commandOfTableWord, Nat.mod_eq_of_lt hlt, commandOfNat_of_lt hlt, BitVec.ofNat_toNat, BitVec.setWidth_eq]
  simp only [decodeTableWord, hword, decode_encode h]

/-- Settles O5: each word is the number of the encoded command beside it, as evaluating the encoder shows. -/
theorem decoderReadsTheSpecsWords : Obligations.DecoderReadsTheSpecsWords :=
  ⟨decodeTableWord_encode (i := .add 12 12) rfl, decodeTableWord_encode (i := .sub 1 2) rfl,
    decodeTableWord_encode (i := .xor 3 5) rfl, decodeTableWord_encode (i := .or 3 4) rfl,
    decodeTableWord_encode (i := .and 12 10) rfl, decodeTableWord_encode (i := .rol 2 3) rfl,
    decodeTableWord_encode (i := .ror 2 3) rfl, decodeTableWord_encode (i := .zext 11 0) rfl,
    decodeTableWord_encode (i := .trunc 1 11) rfl, decodeTableWord_encode (i := .xor 5 15) rfl,
    decodeTableWord_encode (i := .reserved9 10 11) rfl,
    decodeTableWord_encode (i := .reservedAB 0xB 1 2) rfl, decodeTableWord_encode (i := .reservedCF 0xE 5 10) rfl⟩

end Sys2Proof
end
